-- ==== Sys2Proof/Word.lean ====
section
/-! DEFINITION. The value types of the BitBus block (00_scope.md R8): bytes, line levels and durations. -/

namespace Sys2Proof

/-- A `u8` of the spec (R8). -/
abbrev Byte := BitVec 8

/-- One bit or line level, `true` for 1 and `false` for 0 (R8, R22). -/
abbrev Bit := Bool

/-- A `u32` or, read in two's complement, an `i32` (R8). -/
abbrev Word32 := BitVec 32

/-- The 16-bit key mask (R34). -/
abbrev KeyMask := BitVec 16

/-- A duration parameter, in a unit the spec does not fix (DESIGN CHOICE, log 15: safe). -/
abbrev Duration := Nat

/-- The 4 bytes of a key scan report, the first received at index 0 (R34, `KEY_BYTES = 4` of R6). -/
abbrev KeyReport := Vector Byte 4

end Sys2Proof
end

