-- ==== Sys2Proof/Config.lean ====
section
/-! DEFINITION. The configuration of the block (00_scope.md R6, 10_state.md R21) and the free values the spec leaves open. -/

namespace Sys2Proof

/-- `WRITE_FRAMING` (R6, R103): how many strobe windows one register write takes. -/
inductive WriteFraming where
  | oneWindow
  | twoWindows
  deriving DecidableEq, Repr, Inhabited

/-- `INTENSITY_POLICY` (R6, R105): what an intensity above 7 does. -/
inductive IntensityPolicy where
  | reject
  | clamp
  deriving DecidableEq, Repr, Inhabited

/-- The identities of the three lines (R21).
DESIGN CHOICE (log 16, safe): a number each, which no rule reads. -/
structure LineIds where
  strobe : Nat
  clock : Nat
  data : Nat
  deriving DecidableEq, Repr, Inhabited

/-- `KEY_REMAP` (R150): for each bit of a raw report byte, the output bit it moves to, or none. -/
abbrev KeyRemap := Vector (Option (Fin 8)) 8

/-- The parameters of R6 that the configuration argument carries (R21). -/
structure Config where
  /-- `D`, the digit count. -/
  digits : Nat
  /-- `T_BIT`. -/
  tBit : Duration
  /-- `T_BYTE`. -/
  tByte : Duration
  /-- `CMD_WRITE`. -/
  cmdWrite : Byte
  /-- `ADDR_CMD_BASE`. -/
  addrCmdBase : Byte
  /-- `CMD_DISPLAY_BASE`. -/
  cmdDisplayBase : Byte
  /-- `DISPLAY_ON_FLAG`. -/
  displayOnFlag : Byte
  /-- `CMD_READ_KEYS`. -/
  cmdReadKeys : Byte
  /-- `WRITE_FRAMING`. -/
  writeFraming : WriteFraming
  /-- `INTENSITY_POLICY`. -/
  intensityPolicy : IntensityPolicy
  /-- `FMT_PAD_WIDTH`. -/
  fmtPadWidth : Nat
  /-- `KEY_REMAP`. -/
  keyRemap : KeyRemap
  /-- `CFG_ACTIVE`. -/
  cfgActive : Bit
  /-- `CFG_INTENSITY`. -/
  cfgIntensity : BitVec 3
  /-- `ADDR_SPACE`. -/
  addrSpace : Nat
  /-- The identities of the three lines. -/
  lines : LineIds
  deriving DecidableEq, Repr

/-- `FONT_MIN_LEN` (R6). -/
def Config.fontMinLen : Nat := 96

/-! Free values: no body, so no proof can see them. -/

/-- The environment's answer to the `n`-th sample where State lists none (R85; DESIGN CHOICE, log 2: safe). -/
opaque Config.freeSample : Nat → Bit

/-- The OPEN `T_BIT` of the configuration argument of `State.reset` (R6; log 4: safe). -/
opaque Config.argTBit : Duration

/-- The OPEN `T_BYTE` of the configuration argument of `State.reset` (R6; log 4: safe). -/
opaque Config.argTByte : Duration

/-- The OPEN `KEY_REMAP` of the configuration argument of `State.reset` (R150; log 4: safe). -/
opaque Config.argKeyRemap : KeyRemap

/-- The construction argument `CFG_ACTIVE` of `State.reset` (R24; log 4: safe). -/
opaque Config.argActive : Bit

/-- The construction argument `CFG_INTENSITY` of `State.reset` (R25; log 4: safe). -/
opaque Config.argIntensity : BitVec 3

/-- The line identities of the configuration argument of `State.reset` (R21; log 4: safe). -/
opaque Config.argLines : LineIds

end Sys2Proof
end

