-- ==== Sys2Proof/Machine/Params.lean ====
section
/-! DEFINITION. The constraints on a configuration (00_scope.md R7) and the configuration argument of `State.reset`. -/

namespace Sys2Proof

/-- `n` is a power of two (R7). -/
def isPowerOfTwo (n : Nat) : Bool := n != 0 && n &&& (n - 1) == 0

/-- A byte has exactly one bit set (R7). -/
def oneBitSet (b : Byte) : Bool := (List.range 8).countP (fun k => b.getLsbD k) == 1

/-- The constraints of R7; that `KEY_REMAP` is a table as R150 defines is its type. -/
def Config.valid (c : Config) : Bool :=
  decide (1 ≤ c.digits) && decide (c.digits ≤ 8) &&
  decide (2 * (c.digits - 1) < c.addrSpace) &&
  oneBitSet c.displayOnFlag &&
  c.cmdDisplayBase &&& 0x07#8 == 0#8 &&
  c.displayOnFlag &&& 0x07#8 == 0#8 &&
  (!isPowerOfTwo c.addrSpace || c.addrCmdBase.toNat &&& (c.addrSpace - 1) == 0)

/-- The configuration argument of `State.reset`: the defaults R6 gives, the reference digit count 8, and a free value for
every OPEN parameter that has no default (DESIGN CHOICE, log 3: unsafe; log 4: safe). -/
def Config.argument : Config where
  digits := 8
  tBit := Config.argTBit
  tByte := Config.argTByte
  cmdWrite := 0x40#8
  addrCmdBase := 0xC0#8
  cmdDisplayBase := 0x80#8
  displayOnFlag := 0x08#8
  cmdReadKeys := 0x42#8
  writeFraming := .oneWindow
  intensityPolicy := .reject
  fmtPadWidth := 8
  keyRemap := Config.argKeyRemap
  cfgActive := Config.argActive
  cfgIntensity := Config.argIntensity
  addrSpace := 16
  lines := Config.argLines

end Sys2Proof
end

