-- ==== Sys2Proof/Syntax.lean ====
section
/-! DEFINITION. The two encodings of R60 (host requests and wire bytes) and the instructions: one constructor per row of opcode_table.json. -/

namespace Sys2Proof

/-- One typed operand of a host request (R61, R63). -/
inductive Operand where
  | u8 (v : Byte)
  | bit (v : Bit)
  | u32 (v : Word32)
  | i32 (v : Word32)
  | bytes (v : List Byte)
  | report (v : KeyReport)
  deriving DecidableEq, Repr

/-- A host request: one opcode byte and the operand fields (R61). -/
structure Request where
  op : Byte
  operands : List Operand
  deriving DecidableEq, Repr

/-- The two encodings of R60: a host request, or a byte the block puts on the wire. -/
inductive Code where
  | request (r : Request)
  | wire (b : Byte)
  deriving DecidableEq, Repr

/-- The operations of R62 with the operands of R63, then the wire bytes of R65 to R69. -/
inductive Instr where
  /-- BB.TXN_BEGIN (R87). -/
  | bbTxnBegin
  /-- BB.TXN_END (R88). -/
  | bbTxnEnd
  /-- BB.SEND (R82). -/
  | bbSend (b : Byte)
  /-- BB.RECV (R84). -/
  | bbRecv
  /-- CE.WRCMD (R101). -/
  | ceWrcmd
  /-- CE.WRAT (R102). -/
  | ceWrat (addr value : Byte)
  /-- CE.DISPCTL (R104). -/
  | ceDispctl (on : Bit) (intensity : Byte)
  /-- CE.READKEYS (R106). -/
  | ceReadkeys
  /-- DT.SETDISP (R121). -/
  | dtSetdisp (values : List Byte)
  /-- DT.CLEAR (R126). -/
  | dtClear
  /-- DT.STR2BUF (R130). -/
  | dtStr2buf (text : List Byte) (dots : Byte) (font : List Byte)
  /-- DT.SHOWSTR (R131). -/
  | dtShowstr (text : List Byte) (dots : Byte) (font : List Byte)
  /-- DT.SHOWHEX (R137). -/
  | dtShowhex (number : Word32) (dots : Byte) (leadingZeros : Bit) (font : List Byte)
  /-- DT.SHOWUDEC (R138). -/
  | dtShowudec (number : Word32) (dots : Byte) (leadingZeros : Bit) (font : List Byte)
  /-- DT.SHOWSDEC (R139); `number` is an `i32`. -/
  | dtShowsdec (number : Word32) (dots : Byte) (leadingZeros : Bit) (font : List Byte)
  /-- KD.DECODE (R153). -/
  | kdDecode (rep : KeyReport)
  /-- KD.GETKEYS (R154). -/
  | kdGetkeys
  /-- WIRE.CMD_WRITE (R65). -/
  | wireCmdWrite
  /-- WIRE.ADDR (R66): `a` is the register address. -/
  | wireAddr (a : Byte)
  /-- WIRE.DISPCTL (R67): on/off flag `f` and intensity `n`. -/
  | wireDispctl (f : Bit) (n : BitVec 3)
  /-- WIRE.READ_KEYS (R68). -/
  | wireReadKeys
  /-- WIRE.DATA (R69). -/
  | wireData (d : Byte)
  deriving DecidableEq, Repr

/-- The row is an operation a host requests (R62), not a wire byte (R65 to R69). -/
def Instr.isRequest : Instr → Bool
  | .bbTxnBegin | .bbTxnEnd | .bbSend _ | .bbRecv => true
  | .ceWrcmd | .ceWrat _ _ | .ceDispctl _ _ | .ceReadkeys => true
  | .dtSetdisp _ | .dtClear | .dtStr2buf _ _ _ | .dtShowstr _ _ _ => true
  | .dtShowhex _ _ _ _ | .dtShowudec _ _ _ _ | .dtShowsdec _ _ _ _ => true
  | .kdDecode _ | .kdGetkeys => true
  | .wireCmdWrite | .wireAddr _ | .wireDispctl _ _ | .wireReadKeys | .wireData _ => false

end Sys2Proof
end

