-- ==== Sys2Proof/WellFormed.lean ====
section
/-! DEFINITION. Which instructions the encodings of 30_encoding.md can write down. -/

namespace Sys2Proof

/-- The address field of WIRE.ADDR is `aaa0` (R66, opcode_table.json): four bits, bit 0 clear. -/
def addrFieldOk (a : Byte) : Bool := !a.getLsbD 0 && decide (a.toNat < 16)

/-- Well-formedness of an instruction.
The operands of a host request are typed, so every value of the type is one a host can pass (R63).
Only the address of a wire address byte has a format of its own (R66). -/
def Instr.wellFormed : Instr → Bool
  | .bbTxnBegin | .bbTxnEnd | .bbSend _ | .bbRecv => true
  | .ceWrcmd | .ceWrat _ _ | .ceDispctl _ _ | .ceReadkeys => true
  | .dtSetdisp _ | .dtClear | .dtStr2buf _ _ _ | .dtShowstr _ _ _ => true
  | .dtShowhex _ _ _ _ | .dtShowudec _ _ _ _ | .dtShowsdec _ _ _ _ => true
  | .kdDecode _ | .kdGetkeys => true
  | .wireCmdWrite | .wireDispctl _ _ | .wireReadKeys | .wireData _ => true
  | .wireAddr a => addrFieldOk a

end Sys2Proof
end

