-- ==== Sys2Proof/Decode.lean ====
section
/-! DEFINITION. The decoder and the encoder of 30_encoding.md: host requests (R61 to R64, R74) and wire bytes (R65 to R69). -/

namespace Sys2Proof

/-! ## The wire byte formats -/

/-- `AddrByte(a)` (R66). -/
def addrByte (c : Config) (a : Byte) : Byte := c.addrCmdBase ||| a

/-- `CtrlByte(on, n)` (R67): the intensity is bits 2 to 0. -/
def ctrlByte (c : Config) (on : Bit) (n : BitVec 3) : Byte :=
  c.cmdDisplayBase ||| (if on then c.displayOnFlag else 0#8) ||| n.setWidth 8

/-- The flag and the intensity a byte carries, if it has the display-control format (R67).
DESIGN CHOICE (log 22, unsafe): where `CMD_DISPLAY_BASE` holds the bit of `DISPLAY_ON_FLAG`, which R7 does not forbid, one
byte is the control byte of both flags, and neither R55 nor R67 says which it reads as: it reads as on = 1. -/
def ctrlFields (c : Config) (b : Byte) : Option (Bit × BitVec 3) :=
  let f := b &&& c.displayOnFlag != 0#8
  let n := b.setWidth 3
  if ctrlByte c f n = b then some (f, n) else none

/-- Register address of digit plane `i` (R41). -/
def planeAddr (i : Nat) : Byte := BitVec.ofNat 8 (2 * i)

/-- The register address a byte carries, if it is the address byte of one of the `D` planes (R41, R66).
DESIGN CHOICE (log 23, safe): where `ADDR_CMD_BASE` overlaps the addresses, which R7 forbids only for an `ADDR_SPACE` that
is a power of two, one byte may be the address byte of several planes: it reads as that of the lowest. -/
def addrField (c : Config) (b : Byte) : Option Byte :=
  ((List.range c.digits).map planeAddr).find? fun a => addrByte c a == b

/-! ## The opcode map (R62) -/

def opTxnBegin : Byte := 0x01#8
def opTxnEnd : Byte := 0x02#8
def opSend : Byte := 0x03#8
def opRecv : Byte := 0x04#8
def opWrcmd : Byte := 0x10#8
def opWrat : Byte := 0x11#8
def opDispctl : Byte := 0x12#8
def opReadkeys : Byte := 0x13#8
def opSetdisp : Byte := 0x20#8
def opClear : Byte := 0x21#8
def opStr2buf : Byte := 0x22#8
def opShowstr : Byte := 0x23#8
def opShowhex : Byte := 0x24#8
def opShowudec : Byte := 0x25#8
def opShowsdec : Byte := 0x26#8
def opDecode : Byte := 0x30#8
def opGetkeys : Byte := 0x31#8

/-- The opcode byte of an operation (R62); a wire byte has none. -/
def opcodeOf : Instr → Option Byte
  | .bbTxnBegin => some opTxnBegin
  | .bbTxnEnd => some opTxnEnd
  | .bbSend _ => some opSend
  | .bbRecv => some opRecv
  | .ceWrcmd => some opWrcmd
  | .ceWrat _ _ => some opWrat
  | .ceDispctl _ _ => some opDispctl
  | .ceReadkeys => some opReadkeys
  | .dtSetdisp _ => some opSetdisp
  | .dtClear => some opClear
  | .dtStr2buf _ _ _ => some opStr2buf
  | .dtShowstr _ _ _ => some opShowstr
  | .dtShowhex _ _ _ _ => some opShowhex
  | .dtShowudec _ _ _ _ => some opShowudec
  | .dtShowsdec _ _ _ _ => some opShowsdec
  | .kdDecode _ => some opDecode
  | .kdGetkeys => some opGetkeys
  | .wireCmdWrite | .wireAddr _ | .wireDispctl _ _ | .wireReadKeys | .wireData _ => none

/-! ## The decoder -/

/-- What a code decodes to: an instruction, or a rejection by name. -/
inductive Decoded where
  /-- An instruction. -/
  | instr (i : Instr)
  /-- The opcode byte is in no row of R62 (R64). -/
  | illegalOpcode (op : Byte)
  /-- The opcode is assigned, and the operands are not those R63 lists for it, which no host can pass (log 9). -/
  | operandMismatch (op : Byte)
  deriving DecidableEq, Repr

/-! The operand lists of R63, one reader each: the instruction, or the mismatch no host can pass. -/

/-- No operand. -/
def takeNone (r : Request) (i : Instr) : Decoded :=
  match r.operands with
  | [] => .instr i
  | _ => .operandMismatch r.op

/-- One `u8`. -/
def takeByte (r : Request) (f : Byte → Instr) : Decoded :=
  match r.operands with
  | [.u8 b] => .instr (f b)
  | _ => .operandMismatch r.op

/-- Two `u8`. -/
def takeTwoBytes (r : Request) (f : Byte → Byte → Instr) : Decoded :=
  match r.operands with
  | [.u8 a, .u8 b] => .instr (f a b)
  | _ => .operandMismatch r.op

/-- A bit and a `u8`. -/
def takeBitByte (r : Request) (f : Bit → Byte → Instr) : Decoded :=
  match r.operands with
  | [.bit a, .u8 b] => .instr (f a b)
  | _ => .operandMismatch r.op

/-- One list of `u8`. -/
def takeList (r : Request) (f : List Byte → Instr) : Decoded :=
  match r.operands with
  | [.bytes v] => .instr (f v)
  | _ => .operandMismatch r.op

/-- Text, dots and font. -/
def takeText (r : Request) (f : List Byte → Byte → List Byte → Instr) : Decoded :=
  match r.operands with
  | [.bytes text, .u8 dots, .bytes font] => .instr (f text dots font)
  | _ => .operandMismatch r.op

/-- A `u32`, dots, the leading-zeros bit and font. -/
def takeUnsigned (r : Request) (f : Word32 → Byte → Bit → List Byte → Instr) : Decoded :=
  match r.operands with
  | [.u32 n, .u8 dots, .bit lz, .bytes font] => .instr (f n dots lz font)
  | _ => .operandMismatch r.op

/-- An `i32`, dots, the leading-zeros bit and font. -/
def takeSigned (r : Request) (f : Word32 → Byte → Bit → List Byte → Instr) : Decoded :=
  match r.operands with
  | [.i32 n, .u8 dots, .bit lz, .bytes font] => .instr (f n dots lz font)
  | _ => .operandMismatch r.op

/-- Four report bytes. -/
def takeReport (r : Request) (f : KeyReport → Instr) : Decoded :=
  match r.operands with
  | [.report rep] => .instr (f rep)
  | _ => .operandMismatch r.op

/-- Total decoding of a host request: the opcode byte alone selects the operand list (R62, R63, R74); every other opcode
byte is illegal (R64). -/
def decodeRequest (r : Request) : Decoded :=
  match r.op.toNat with
  | 0x01 => takeNone r .bbTxnBegin
  | 0x02 => takeNone r .bbTxnEnd
  | 0x03 => takeByte r .bbSend
  | 0x04 => takeNone r .bbRecv
  | 0x10 => takeNone r .ceWrcmd
  | 0x11 => takeTwoBytes r .ceWrat
  | 0x12 => takeBitByte r .ceDispctl
  | 0x13 => takeNone r .ceReadkeys
  | 0x20 => takeList r .dtSetdisp
  | 0x21 => takeNone r .dtClear
  | 0x22 => takeText r .dtStr2buf
  | 0x23 => takeText r .dtShowstr
  | 0x24 => takeUnsigned r .dtShowhex
  | 0x25 => takeUnsigned r .dtShowudec
  | 0x26 => takeSigned r .dtShowsdec
  | 0x30 => takeReport r .kdDecode
  | 0x31 => takeNone r .kdGetkeys
  | _ => .illegalOpcode r.op

/-- Total decoding of a wire byte: the most specific format of R65 to R68 that fits, else a data byte (R69).
DESIGN CHOICE (log 8, safe): the spec reads a wire byte by its place in the frame; the byte sent is the same under every reading. -/
def decodeWire (c : Config) (b : Byte) : Instr :=
  if b = c.cmdWrite then .wireCmdWrite
  else if b = c.cmdReadKeys then .wireReadKeys
  else match ctrlFields c b, addrField c b with
    | some (f, n), _ => .wireDispctl f n
    | none, some a => .wireAddr a
    | none, none => .wireData b

/-- Total decoding of either encoding of R60. -/
def decode (c : Config) : Code → Decoded
  | .request r => decodeRequest r
  | .wire b => .instr (decodeWire c b)

/-! ## The encoder -/

/-- The code of an instruction: the request of R62 and R63, or the byte of R65 to R69. -/
def encode (c : Config) : Instr → Code
  | .bbTxnBegin => .request ⟨opTxnBegin, []⟩
  | .bbTxnEnd => .request ⟨opTxnEnd, []⟩
  | .bbSend b => .request ⟨opSend, [.u8 b]⟩
  | .bbRecv => .request ⟨opRecv, []⟩
  | .ceWrcmd => .request ⟨opWrcmd, []⟩
  | .ceWrat addr value => .request ⟨opWrat, [.u8 addr, .u8 value]⟩
  | .ceDispctl on intensity => .request ⟨opDispctl, [.bit on, .u8 intensity]⟩
  | .ceReadkeys => .request ⟨opReadkeys, []⟩
  | .dtSetdisp values => .request ⟨opSetdisp, [.bytes values]⟩
  | .dtClear => .request ⟨opClear, []⟩
  | .dtStr2buf text dots font => .request ⟨opStr2buf, [.bytes text, .u8 dots, .bytes font]⟩
  | .dtShowstr text dots font => .request ⟨opShowstr, [.bytes text, .u8 dots, .bytes font]⟩
  | .dtShowhex n dots lz font => .request ⟨opShowhex, [.u32 n, .u8 dots, .bit lz, .bytes font]⟩
  | .dtShowudec n dots lz font => .request ⟨opShowudec, [.u32 n, .u8 dots, .bit lz, .bytes font]⟩
  | .dtShowsdec n dots lz font => .request ⟨opShowsdec, [.i32 n, .u8 dots, .bit lz, .bytes font]⟩
  | .kdDecode rep => .request ⟨opDecode, [.report rep]⟩
  | .kdGetkeys => .request ⟨opGetkeys, []⟩
  | .wireCmdWrite => .wire c.cmdWrite
  | .wireAddr a => .wire (addrByte c a)
  | .wireDispctl f n => .wire (ctrlByte c f n)
  | .wireReadKeys => .wire c.cmdReadKeys
  | .wireData d => .wire d

/-! ## One byte of the opcode table -/

/-- The operands of R63 for an opcode, every one at zero or empty. -/
def zeroOperands (op : Byte) : List Operand :=
  match op.toNat with
  | 0x03 => [.u8 0#8]
  | 0x11 => [.u8 0#8, .u8 0#8]
  | 0x12 => [.bit false, .u8 0#8]
  | 0x20 => [.bytes []]
  | 0x22 | 0x23 => [.bytes [], .u8 0#8, .bytes []]
  | 0x24 | 0x25 => [.u32 0#32, .u8 0#8, .bit false, .bytes []]
  | 0x26 => [.i32 0#32, .u8 0#8, .bit false, .bytes []]
  | 0x30 => [.report #v[0#8, 0#8, 0#8, 0#8]]
  | _ => []

/-- The code a byte of the opcode table stands for: the request with that opcode and zero operands where R62 has the
opcode, else the wire byte.
DESIGN CHOICE (log 19, safe): the table lists both encodings over the same eight bits. -/
def tableCode (b : Byte) : Code :=
  match decodeRequest ⟨b, zeroOperands b⟩ with
  | .instr _ => .request ⟨b, zeroOperands b⟩
  | .illegalOpcode _ | .operandMismatch _ => .wire b

/-- The instruction of an opcode-table word: every row has 8 bits (opcode_table.json), read under the configuration
argument of `State.reset`. -/
def decodeTableWord (nbits w : Nat) : Option Instr :=
  if nbits = 8 then
    match decode Config.argument (tableCode (BitVec.ofNat 8 w)) with
    | .instr i => some i
    | .illegalOpcode _ | .operandMismatch _ => none
  else none

end Sys2Proof
end

