-- ==== Sys2Proof/Machine/State.lean ====
section
/-! DEFINITION. The architectural state of the block (10_state.md) as plain data, its line events, its fault record and its reset. -/

namespace Sys2Proof.Machine

/-- Direction of the data line (R23). -/
inductive Dir where
  | input
  | output
  deriving DecidableEq, Repr

/-- The two delays a `Wait` can name (R9). -/
inductive Delay where
  | bit
  | byte
  deriving DecidableEq, Repr

/-- A line event (R29). -/
inductive Event where
  | stb (l : Bit)
  | clk (l : Bit)
  | dioDir (d : Dir)
  | dioOut (l : Bit)
  | sample (b : Bit)
  | wait (k : Delay)
  deriving DecidableEq, Repr

/-- The response of the last operation that completed (R27). -/
inductive Result where
  | none
  | byte (b : Byte)
  | report (rep : KeyReport)
  | mask (m : KeyMask)
  | buffer (bs : List Byte)
  deriving DecidableEq, Repr

/-- The two kinds of fault (R160). -/
inductive FaultKind where
  | illegalOperation
  | contractViolation
  deriving DecidableEq, Repr

/-- The fault reasons (R161). -/
inductive Reason where
  /-- 0x00, the opcode byte is in no row of R62. -/
  | illegalOperation
  /-- 0x01 `CV_TXN_OPEN`. -/
  | txnOpen
  /-- 0x02 `CV_NO_TXN`. -/
  | noTxn
  /-- 0x10 `CV_ODD_ADDRESS`. -/
  | oddAddress
  /-- 0x11 `CV_POSITION`. -/
  | position
  /-- 0x20 `CV_INTENSITY`. -/
  | intensity
  /-- 0x30 `CV_LEN`. -/
  | len
  /-- 0x40 `CV_FONT_SHORT`. -/
  | fontShort
  /-- 0x41 `CV_FONT_INDEX_LOW`. -/
  | fontIndexLow
  /-- 0x42 `CV_FONT_INDEX_HIGH`. -/
  | fontIndexHigh
  deriving DecidableEq, Repr

/-- The `info` of a fault record (R161). -/
inductive FaultInfo where
  | empty
  | op (op : Byte)
  | addr (addr : Byte)
  | intensity (intensity : Byte)
  | len (len : Nat)
  | fontLen (fontLen : Nat)
  | char (index : Nat) (code : Byte)
  deriving DecidableEq, Repr

/-- The record written by fault entry (R162). -/
structure FaultRecord where
  kind : FaultKind
  reason : Reason
  opcode : Byte
  reqIndex : Nat
  info : FaultInfo
  deriving DecidableEq, Repr

/-- What the outside offers the block between two steps.
DESIGN CHOICE (log 1, 6, 12, safe): the spec says what a request and a reset do, not how they arrive. -/
inductive Input where
  /-- A host request, or a wire byte of the opcode table (R60). -/
  | code (c : Code)
  /-- A reset with its configuration argument (R190). -/
  | reset (c : Config)
  deriving DecidableEq, Repr

/-- The model's stops. A fault of the spec is a next state with the record written (R165), not one of these. -/
inductive Fault where
  /-- Raised by the meanings of the five WIRE rows when no window is open: `sendByte` requires `stb = 0` (R80), and the
  spec gives a byte outside a window no effect. Safe (log 7): the model stops where the block never goes. -/
  | sendOutsideWindow
  /-- Raised by the meaning of WIRE.ADDR for an address that is odd or at or above `2*D`, which the block never sends
  (R42, R70). Safe (log 7). -/
  | reservedAddressByte
  deriving DecidableEq, Repr

/-- What the model gives no meaning to. -/
inductive Refusal where
  /-- An instruction of the opcode table that has no meaning yet: raised by `exec`'s arms only. Safe. -/
  | notModelled (mnemonic : String)
  /-- Raised by every step and meaning under a configuration that breaks R7, which "is refused". Safe (log 10). -/
  | invalidConfig
  /-- Raised by the step for an assigned opcode with operands R63 does not list: no host can pass them. Safe (log 9). -/
  | malformedRequest (op : Byte)
  deriving DecidableEq, Repr

/-- The state record of 10_state.md, then the model's own fields; nothing of the chip (R32; DESIGN CHOICE, log 20, safe). -/
structure State where
  /-- R21. -/
  cfg : Config
  /-- Output level of the strobe line; 0 while a transaction is open (R22, R31). -/
  stb : Bit
  /-- Output level of the clock line (R22). -/
  clk : Bit
  /-- Direction of the data line (R23). -/
  dioDir : Dir
  /-- Output latch of the data line (R23). -/
  dioOut : Bit
  /-- On/off flag of the last display-control byte sent (R24). -/
  active : Bit
  /-- Intensity of the last display-control byte sent (R25). -/
  intensity : BitVec 3
  /-- The display buffer, `D` bytes (R26). -/
  buf : List Byte
  /-- R27. -/
  result : Result
  /-- R28. -/
  fault : Option FaultRecord
  /-- The line events since reset, oldest first (R29). -/
  trace : List Event
  /-- Requests completed since reset (R30). -/
  reqIndex : Nat
  /-- Model's own: what was offered and not yet met, oldest first (log 1). -/
  inputs : List Input
  /-- Model's own: the environment's answers to the next samples (R85, log 2). -/
  samples : List Bit
  /-- Model's own: samples taken so far, the argument of the free value (log 2). -/
  drawn : Nat
  deriving DecidableEq, Repr

/-- The state right after a reset with configuration argument `c` (R37, R190). -/
def State.resetWith (c : Config) : State where
  cfg := c
  stb := true
  clk := true
  dioDir := .output
  dioOut := false
  active := c.cfgActive
  intensity := c.cfgIntensity
  buf := List.replicate c.digits 0#8
  result := .none
  fault := none
  trace := []
  reqIndex := 0
  inputs := []
  samples := []
  drawn := 0

/-- The machine right after reset, under the configuration argument of log 3 and 4. -/
def State.reset : State := State.resetWith Config.argument

end Sys2Proof.Machine
end

