-- ==== Sys2Proof/Machine/Flags.lean ====
section
/-! DEFINITION. The block has no condition codes (10_state.md R36): its only status is `fault` and `result`, and the strobe says whether a window is open. -/

namespace Sys2Proof.Machine

/-- A fault is recorded, so the block takes no request (R28, R166). -/
def halted (s : State) : Bool := s.fault.isSome

/-- A transaction is open (R31). -/
def windowOpen (s : State) : Bool := !s.stb

/-- Kind codes (R160). -/
def kindCode : FaultKind → Byte
  | .illegalOperation => 1#8
  | .contractViolation => 2#8

/-- Reason codes (R161). -/
def reasonCode : Reason → Byte
  | .illegalOperation => 0x00#8
  | .txnOpen => 0x01#8
  | .noTxn => 0x02#8
  | .oddAddress => 0x10#8
  | .position => 0x11#8
  | .intensity => 0x20#8
  | .len => 0x30#8
  | .fontShort => 0x40#8
  | .fontIndexLow => 0x41#8
  | .fontIndexHigh => 0x42#8

/-- The kind a reason belongs to (R161). -/
def kindOf : Reason → FaultKind
  | .illegalOperation => .illegalOperation
  | .txnOpen | .noTxn | .oddAddress | .position | .intensity | .len => .contractViolation
  | .fontShort | .fontIndexLow | .fontIndexHigh => .contractViolation

end Sys2Proof.Machine
end

