-- ==== Sys2Proof/Machine/Ops.lean ====
section
/-! DEFINITION. The primitives of 00_scope.md R9, the transport procedures of 41_bitbus.md, completion and fault entry, over State. -/

namespace Sys2Proof.Machine

/-! ## Primitives (R9): each appends exactly one event (R29) -/

/-- `Drive(STB, l)`. -/
def driveStb (l : Bit) (s : State) : State := { s with stb := l, trace := s.trace ++ [.stb l] }

/-- `Drive(CLK, l)`. -/
def driveClk (l : Bit) (s : State) : State := { s with clk := l, trace := s.trace ++ [.clk l] }

/-- `Drive(DIO, l)`. -/
def driveDio (l : Bit) (s : State) : State := { s with dioOut := l, trace := s.trace ++ [.dioOut l] }

/-- `SetDir(DIO, d)`. -/
def setDir (d : Dir) (s : State) : State := { s with dioDir := d, trace := s.trace ++ [.dioDir d] }

/-- `Wait(k)`. -/
def wait (k : Delay) (s : State) : State := { s with trace := s.trace ++ [.wait k] }

/-- The environment's answer to the `k`-th sample from here: the listed one, else the free value (R85, log 2). -/
def draw (s : State) (k : Nat) : Bit := s.samples.getD k (Config.freeSample (s.drawn + k))

/-- `Sample(DIO)`: the drawn bit, recorded in the trace (R85). -/
def sample (s : State) : Bit × State :=
  (draw s 0,
   { s with samples := s.samples.tail, drawn := s.drawn + 1, trace := s.trace ++ [.sample (draw s 0)] })

/-! ## The transport procedures, as written in every state, those that break their preconditions (R80) among them: DESIGN
CHOICE, log 14, safe -/

/-- The bit cells of a byte in wire order, bit 0 first (R45). -/
def bitCells : List Nat := [0, 1, 2, 3, 4, 5, 6, 7]

/-- One cell of `sendByte` (R81). -/
def sendBit (l : Bit) (s : State) : State :=
  wait .bit (driveClk true (wait .bit (driveClk false (wait .bit (driveDio l s)))))

/-- `sendByte(b)` (R81). -/
def sendByte (b : Byte) (s : State) : State :=
  bitCells.foldl (fun s k => sendBit (b.getLsbD k) s) s

/-- `r[k] <- l`. -/
def setBit (r : Byte) (k : Nat) (l : Bit) : Byte :=
  if l then r ||| (1#8 <<< k) else r &&& ~~~(1#8 <<< k)

/-- One cell of `receiveByte` (R83), `r` the byte built so far. -/
def receiveBit (k : Nat) (r : Byte) (s : State) : Byte × State :=
  let (l, s) := sample (wait .bit (driveClk false s))
  (setBit r k l, wait .bit (driveClk true s))

/-- `receiveByte()` (R83). -/
def receiveByte (s : State) : Byte × State :=
  let (r, s) := bitCells.foldl (fun p k => receiveBit k p.1 p.2) (0#8, setDir .input s)
  (r, setDir .output s)

/-- `transaction { body }` (R86), with the value the body reads. -/
def transaction {α : Type} (body : State → α × State) (s : State) : α × State :=
  let (a, s) := body (wait .bit (driveStb false s))
  (a, wait .bit (driveStb true s))

/-- `sendByte` of each byte in turn. -/
def sendBytes (bs : List Byte) (s : State) : State := bs.foldl (fun s b => sendByte b s) s

/-- `transaction { sendByte(b0); sendByte(b1); ... }`. -/
def sendTransaction (bs : List Byte) (s : State) : State :=
  (transaction (fun s => ((), sendBytes bs s)) s).2

/-- `WriteFrame(a, v)` (R108) under either framing (R103). -/
def writeFrame (a v : Byte) (s : State) : State :=
  match s.cfg.writeFraming with
  | .oneWindow => sendTransaction [s.cfg.cmdWrite, addrByte s.cfg a, v] s
  | .twoWindows => sendTransaction [addrByte s.cfg a, v] (sendTransaction [s.cfg.cmdWrite] s)

/-- `WriteFrame(2*j, w)` for each plane word `w` in turn, the first at plane `j` (R121, R122). -/
def writePlanesFrom (j : Nat) : List Byte → State → State
  | [], s => s
  | w :: ws, s => writePlanesFrom (j + 1) ws (writeFrame (planeAddr j) w s)

/-- One received byte of a report with its two delays (R107). -/
def receiveReportByte (s : State) : Byte × State :=
  let (r, s) := receiveByte (wait .byte s)
  (r, wait .byte s)

/-- The body of CE.READKEYS' transaction (R106). -/
def readKeysBody (s : State) : KeyReport × State :=
  let (r0, s) := receiveReportByte (sendByte s.cfg.cmdReadKeys s)
  let (r1, s) := receiveReportByte s
  let (r2, s) := receiveReportByte s
  let (r3, s) := receiveReportByte s
  (#v[r0, r1, r2, r3], s)

/-- The whole key-read transaction of R106 and R154. -/
def readKeys (s : State) : KeyReport × State := transaction readKeysBody s

/-! ## Completion, fault entry and what every request passes first -/

/-- A request completes: `result` is its last effect (R27) and `reqIndex` counts it (R30). -/
def complete (r : Result) (s : State) : State :=
  { s with result := r, reqIndex := s.reqIndex + 1 }

/-- The strobe release of fault entry: only an open window emits events (R165). -/
def releaseStrobe (s : State) : State :=
  if windowOpen s then wait .bit (driveStb true s) else s

/-- `FaultEntry` (R165): release the strobe, then write the record of R162. -/
def faultEntry (op : Byte) (reason : Reason) (info : FaultInfo) (s : State) : State :=
  { releaseStrobe s with
    fault := some { kind := kindOf reason, reason := reason, opcode := op, reqIndex := s.reqIndex, info := info } }

/-- `raise` in the request with opcode `op` (R9, R165). -/
def raise (op : Byte) (reason : Reason) (info : FaultInfo) (s : State) : Host.Outcome State Fault Refusal :=
  .next (faultEntry op reason info s)

/-- What stands before every request: a configuration that breaks R7 is refused, and a halted block takes nothing and
changes nothing (R164 (1), R166). -/
def whenServing (s : State) (k : Host.Outcome State Fault Refusal) : Host.Outcome State Fault Refusal :=
  if s.cfg.valid then (if halted s then .next s else k) else .refused .invalidConfig

/-- The strobe check of the operations that need the bus idle (R100, R87): an open window raises `CV_TXN_OPEN`. -/
def requireIdle (op : Byte) (s : State) (k : Host.Outcome State Fault Refusal) : Host.Outcome State Fault Refusal :=
  if windowOpen s then raise op .txnOpen .empty s else k

/-- The strobe check of BB.SEND, BB.RECV and BB.TXN_END (R82, R84, R88): no window raises `CV_NO_TXN`. -/
def requireWindow (op : Byte) (s : State) (k : Host.Outcome State Fault Refusal) : Host.Outcome State Fault Refusal :=
  if windowOpen s then k else raise op .noTxn .empty s

/-- A request whose opcode byte has no row in R62 (R64, R164 (2)). -/
def illegalOperation (op : Byte) (s : State) : Host.Outcome State Fault Refusal :=
  whenServing s (raise op .illegalOperation (.op op) s)

/-- A request whose operands are not those of its opcode, which R63 says no host can pass (log 9). -/
def malformedRequest (op : Byte) (s : State) : Host.Outcome State Fault Refusal :=
  whenServing s (.refused (.malformedRequest op))

/-- A reset with configuration argument `c` (R190): legal in every state, halted or not; a configuration that breaks R7
is refused. What the outside holds (the inputs to come and the environment's answers) is not block state (log 12). -/
def applyReset (c : Config) (s : State) : Host.Outcome State Fault Refusal :=
  if c.valid then
    .next { State.resetWith c with inputs := s.inputs, samples := s.samples, drawn := s.drawn }
  else .refused .invalidConfig

/-- Nothing is offered: the block waits (R190, log 13). -/
def waitForRequest (s : State) : Host.Outcome State Fault Refusal :=
  if s.cfg.valid then .next s else .refused .invalidConfig

/-- The block clocks one byte out in the open window: the whole effect of a wire byte (R81, log 6).
It is no request, so `result` and `reqIndex` stay. -/
def sendInWindow (b : Byte) (s : State) : Host.Outcome State Fault Refusal :=
  whenServing s (if windowOpen s then .next (sendByte b s) else .fault .sendOutsideWindow)

end Sys2Proof.Machine
end

