-- ==== Sys2Proof/Machine/BitBus.lean ====
section
/-! DEFINITION. The BitBus family (41_bitbus.md): the raw transport operations. -/

namespace Sys2Proof.Machine

/-- BB.TXN_BEGIN (R87). -/
def execBbTxnBegin (s : State) : Host.Outcome State Fault Refusal :=
  whenServing s <| requireIdle opTxnBegin s <|
    .next (complete .none (wait .bit (driveStb false s)))

/-- BB.TXN_END (R88). -/
def execBbTxnEnd (s : State) : Host.Outcome State Fault Refusal :=
  whenServing s <| requireWindow opTxnEnd s <|
    .next (complete .none (wait .bit (driveStb true s)))

/-- BB.SEND (R82). -/
def execBbSend (b : Byte) (s : State) : Host.Outcome State Fault Refusal :=
  whenServing s <| requireWindow opSend s <|
    .next (complete .none (sendByte b s))

/-- BB.RECV (R84). -/
def execBbRecv (s : State) : Host.Outcome State Fault Refusal :=
  whenServing s <| requireWindow opRecv s <|
    .next (complete (.byte (receiveByte s).1) (receiveByte s).2)

end Sys2Proof.Machine
end

