-- ==== Sys2Proof/Machine/Operands.lean ====
section
/-! DEFINITION. What the operations compute from their operands before and beside the bus: checks, the plane transpose, text and number rendering, and the key decoder. -/

namespace Sys2Proof.Machine

/-! ## Intensity and addresses -/

/-- `IntensityOperand(x)` (R105); `none` where it raises. -/
def intensityOperand (c : Config) (x : Byte) : Option (BitVec 3) :=
  if x.toNat ≤ 7 then some (x.setWidth 3)
  else match c.intensityPolicy with
    | .reject => none
    | .clamp => some 7#3

/-- The digit position of a register address is in range (R102). -/
def positionOk (c : Config) (addr : Byte) : Bool := decide ((addr >>> 1).toNat < c.digits)

/-! ## The plane transpose -/

/-- Plane word `i` of `Transpose` (R120). -/
def planeWord (digits : Nat) (values : List Byte) (i : Nat) : Byte :=
  (List.range values.length).foldl
    (fun w j => w ||| (((values.getD j 0#8 >>> i) &&& 1#8) <<< (digits - j - 1))) 0#8

/-- `Transpose(values, len)` (R120). -/
def transpose (digits : Nat) (values : List Byte) : List Byte :=
  (List.range digits).map (planeWord digits values)

/-! ## Building the buffer from text -/

/-- `dotBitAt(mask, i)` (R127). -/
def dotBitAt (digits : Nat) (mask : Byte) (i : Nat) : Byte :=
  ((mask >>> (digits - i - 1)) &&& 1#8) <<< 7

/-- One position of `StringToBuffer` (R128). -/
def segmentAt (digits : Nat) (text : List Byte) (dots : Byte) (font : List Byte) (i : Nat) : Byte :=
  match text[i]? with
  | some c => font.getD (c.toNat - 32) 0#8 ||| dotBitAt digits dots i
  | none => dotBitAt digits dots i

/-- `StringToBuffer(text, dots, font)` (R128). -/
def stringToBuffer (digits : Nat) (text : List Byte) (dots : Byte) (font : List Byte) : List Byte :=
  (List.range digits).map (segmentAt digits text dots font)

/-- The index checks of R129 over the given characters, the first at position `i`. -/
def charChecks (fontLen : Nat) (i : Nat) : List Byte → Option (Reason × FaultInfo)
  | [] => none
  | c :: cs =>
    if c.toNat < 32 then some (.fontIndexLow, .char i c)
    else if c.toNat - 32 ≥ fontLen then some (.fontIndexHigh, .char i c)
    else charChecks fontLen (i + 1) cs

/-- `FontChecks(text, font)` (R129): the first check that fails, over the first `D` characters only (R132). -/
def fontChecks (digits : Nat) (text font : List Byte) : Option (Reason × FaultInfo) :=
  if font.length < Config.fontMinLen then some (.fontShort, .fontLen font.length)
  else charChecks font.length 0 (text.take digits)

/-! ## Number rendering -/

/-- The character code of a digit: '0'..'9' then 'A'..'F' (R134). -/
def digitChar (d : Nat) : Byte := BitVec.ofNat 8 (if d < 10 then 48 + d else 55 + d)

/-- The digits of `n` in front of `acc`, most significant first, in at most `fuel` digits. -/
def digitsOnto (base : Nat) : Nat → Nat → List Byte → List Byte
  | 0, _, acc => acc
  | fuel + 1, n, acc =>
    let acc := digitChar (n % base) :: acc
    if n / base = 0 then acc else digitsOnto base fuel (n / base) acc

/-- The digits of a 32-bit magnitude, no leading zero, "0" for zero (R134, R135): at most 10 in base 10 or 16. -/
def digits (base n : Nat) : List Byte := digitsOnto base 10 n []

/-- '0' repeated up to the pad width, if padding is asked for. -/
def padZeros (leadingZeros : Bit) (width used : Nat) : List Byte :=
  if leadingZeros then List.replicate (width - used) 48#8 else []

/-- `FmtHex(n, lz)` (R134). -/
def fmtHex (padWidth : Nat) (n : Word32) (leadingZeros : Bit) : List Byte :=
  let ds := digits 16 n.toNat
  padZeros leadingZeros padWidth ds.length ++ ds

/-- `FmtUDec(n, lz)` (R135). -/
def fmtUDec (padWidth : Nat) (n : Word32) (leadingZeros : Bit) : List Byte :=
  let ds := digits 10 n.toNat
  padZeros leadingZeros padWidth ds.length ++ ds

/-- `FmtSDec(n, lz)` (R136): the zeros go between the sign and the digits. -/
def fmtSDec (padWidth : Nat) (n : Word32) (leadingZeros : Bit) : List Byte :=
  let sign := if n.toInt < 0 then [45#8] else []
  let ds := digits 10 n.toInt.natAbs
  sign ++ padZeros leadingZeros padWidth (sign.length + ds.length) ++ ds

/-! ## The key-scan decoder -/

/-- `Remap(r)` (R150). -/
def remap (dest : KeyRemap) (r : Byte) : Byte :=
  (List.finRange 8).foldl
    (fun rec s => match dest[s] with
      | some d => rec ||| (BitVec.ofBool (r.getLsbD s)).setWidth 8 <<< d.val
      | none => rec) 0#8

/-- `Fold(rec, k)` (R151): shifts on unbounded naturals, then the cut to 16 bits (R8). -/
def foldByte (rec : Byte) (k : Nat) : KeyMask :=
  BitVec.ofNat 16
    (((rec.toNat &&& 0x0F) <<< (2 * k)) ||| (((rec.toNat &&& 0xF0) <<< 4) <<< (2 * k)))

/-- `DecodeKeys(rep)` (R152). -/
def decodeKeys (dest : KeyRemap) (rep : KeyReport) : KeyMask :=
  foldByte (remap dest rep[0]) 0 ||| foldByte (remap dest rep[1]) 1 |||
  foldByte (remap dest rep[2]) 2 ||| foldByte (remap dest rep[3]) 3

end Sys2Proof.Machine
end

