-- ==== Sys2Proof/Machine/CommandEncoder.lean ====
section
/-! DEFINITION. The CommandEncoder family (42_command_encoder.md): command framing. -/

namespace Sys2Proof.Machine

/-- CE.WRCMD (R101). -/
def execCeWrcmd (s : State) : Host.Outcome State Fault Refusal :=
  whenServing s <| requireIdle opWrcmd s <|
    .next (complete .none (sendTransaction [s.cfg.cmdWrite] s))

/-- CE.WRAT (R102): parity before position (R164). -/
def execCeWrat (addr value : Byte) (s : State) : Host.Outcome State Fault Refusal :=
  whenServing s <| requireIdle opWrat s <|
    if addr.getLsbD 0 then raise opWrat .oddAddress (.addr addr) s
    else if positionOk s.cfg addr then .next (complete .none (writeFrame addr value s))
    else raise opWrat .position (.addr addr) s

/-- CE.DISPCTL (R104): `active` and `intensity` are written after the transaction. -/
def execCeDispctl (on : Bit) (intensity : Byte) (s : State) : Host.Outcome State Fault Refusal :=
  whenServing s <| requireIdle opDispctl s <|
    match intensityOperand s.cfg intensity with
    | none => raise opDispctl .intensity (.intensity intensity) s
    | some n =>
      .next (complete .none
        { sendTransaction [ctrlByte s.cfg on n] s with active := on, intensity := n })

/-- CE.READKEYS (R106). -/
def execCeReadkeys (s : State) : Host.Outcome State Fault Refusal :=
  whenServing s <| requireIdle opReadkeys s <|
    .next (complete (.report (readKeys s).1) (readKeys s).2)

end Sys2Proof.Machine
end

