-- ==== Sys2Proof/Machine/DisplayTransform.lean ====
section
/-! DEFINITION. The DisplayTransform family (43_display_transform.md): planes, text and numbers. -/

namespace Sys2Proof.Machine

/-- The common body of DT.SETDISP and DT.CLEAR (R121, R126), `op` the opcode a fault records. -/
def setDisplay (op : Byte) (values : List Byte) (s : State) : Host.Outcome State Fault Refusal :=
  requireIdle op s <|
    if values.length > s.cfg.digits then raise op .len (.len values.length) s
    else .next (complete .none (writePlanesFrom 0 (transpose s.cfg.digits values) s))

/-- `buf` becomes the rendered text (R128). -/
def renderText (text : List Byte) (dots : Byte) (font : List Byte) (s : State) : State :=
  { s with buf := stringToBuffer s.cfg.digits text dots font }

/-- The strobe check, then `ShowText` (R131), `op` the opcode a fault records. -/
def showText (op : Byte) (text : List Byte) (dots : Byte) (font : List Byte) (s : State) :
    Host.Outcome State Fault Refusal :=
  requireIdle op s <|
    match fontChecks s.cfg.digits text font with
    | some (reason, info) => raise op reason info s
    | none =>
      .next (complete .none
        (writePlanesFrom 0 (transpose s.cfg.digits (stringToBuffer s.cfg.digits text dots font))
          (renderText text dots font s)))

/-- DT.SETDISP (R121). -/
def execDtSetdisp (values : List Byte) (s : State) : Host.Outcome State Fault Refusal :=
  whenServing s <| setDisplay opSetdisp values s

/-- DT.CLEAR (R126): DT.SETDISP of no values. -/
def execDtClear (s : State) : Host.Outcome State Fault Refusal :=
  whenServing s <| setDisplay opClear [] s

/-- DT.STR2BUF (R130): no event and no strobe check. -/
def execDtStr2buf (text : List Byte) (dots : Byte) (font : List Byte) (s : State) :
    Host.Outcome State Fault Refusal :=
  whenServing s <|
    match fontChecks s.cfg.digits text font with
    | some (reason, info) => raise opStr2buf reason info s
    | none =>
      .next (complete (.buffer (stringToBuffer s.cfg.digits text dots font)) (renderText text dots font s))

/-- DT.SHOWSTR (R131). -/
def execDtShowstr (text : List Byte) (dots : Byte) (font : List Byte) (s : State) :
    Host.Outcome State Fault Refusal :=
  whenServing s <| showText opShowstr text dots font s

/-- DT.SHOWHEX (R137). -/
def execDtShowhex (number : Word32) (dots : Byte) (leadingZeros : Bit) (font : List Byte) (s : State) :
    Host.Outcome State Fault Refusal :=
  whenServing s <| showText opShowhex (fmtHex s.cfg.fmtPadWidth number leadingZeros) dots font s

/-- DT.SHOWUDEC (R138). -/
def execDtShowudec (number : Word32) (dots : Byte) (leadingZeros : Bit) (font : List Byte) (s : State) :
    Host.Outcome State Fault Refusal :=
  whenServing s <| showText opShowudec (fmtUDec s.cfg.fmtPadWidth number leadingZeros) dots font s

/-- DT.SHOWSDEC (R139). -/
def execDtShowsdec (number : Word32) (dots : Byte) (leadingZeros : Bit) (font : List Byte) (s : State) :
    Host.Outcome State Fault Refusal :=
  whenServing s <| showText opShowsdec (fmtSDec s.cfg.fmtPadWidth number leadingZeros) dots font s

end Sys2Proof.Machine
end

