-- ==== Sys2Proof/Machine/KeyScanDecoder.lean ====
section
/-! DEFINITION. The KeyScanDecoder family (44_key_scan_decoder.md): key decoding. -/

namespace Sys2Proof.Machine

/-- KD.DECODE (R153): no event and no strobe check. -/
def execKdDecode (rep : KeyReport) (s : State) : Host.Outcome State Fault Refusal :=
  whenServing s <| .next (complete (.mask (decodeKeys s.cfg.keyRemap rep)) s)

/-- KD.GETKEYS (R154): the raw report is not kept. -/
def execKdGetkeys (s : State) : Host.Outcome State Fault Refusal :=
  whenServing s <| requireIdle opGetkeys s <|
    .next (complete (.mask (decodeKeys s.cfg.keyRemap (readKeys s).1)) (readKeys s).2)

end Sys2Proof.Machine
end

