-- ==== Sys2Proof/Machine/Wire.lean ====
section
/-! DEFINITION. The wire-byte rows of the opcode table (30_encoding.md R65 to R69): the block clocks the byte out in the open window (log 6). -/

namespace Sys2Proof.Machine

/-- WIRE.CMD_WRITE (R65). -/
def execWireCmdWrite (s : State) : Host.Outcome State Fault Refusal :=
  sendInWindow s.cfg.cmdWrite s

/-- WIRE.ADDR (R66): an odd address and one at or above `2*D` are never sent (R42, R70). -/
def execWireAddr (a : Byte) (s : State) : Host.Outcome State Fault Refusal :=
  if s.cfg.valid && !halted s && (a.getLsbD 0 || !positionOk s.cfg a) then .fault .reservedAddressByte
  else sendInWindow (addrByte s.cfg a) s

/-- WIRE.DISPCTL (R67). -/
def execWireDispctl (f : Bit) (n : BitVec 3) (s : State) : Host.Outcome State Fault Refusal :=
  sendInWindow (ctrlByte s.cfg f n) s

/-- WIRE.READ_KEYS (R68). -/
def execWireReadKeys (s : State) : Host.Outcome State Fault Refusal :=
  sendInWindow s.cfg.cmdReadKeys s

/-- WIRE.DATA (R69): sent unchanged. -/
def execWireData (d : Byte) (s : State) : Host.Outcome State Fault Refusal :=
  sendInWindow d s

end Sys2Proof.Machine
end

