-- ==== Sys2Proof/Machine/Dispatch.lean ====
section
/-! DEFINITION. One arm per row of opcode_table.json, each a direct call of that row's meaning. -/

namespace Sys2Proof.Machine

def exec (i : Instr) (s : State) : Host.Outcome State Fault Refusal :=
  match i with
  | .bbTxnBegin => Sys2Proof.Machine.execBbTxnBegin s
  | .bbTxnEnd => Sys2Proof.Machine.execBbTxnEnd s
  | .bbSend b => Sys2Proof.Machine.execBbSend b s
  | .bbRecv => Sys2Proof.Machine.execBbRecv s
  | .ceWrcmd => Sys2Proof.Machine.execCeWrcmd s
  | .ceWrat addr value => Sys2Proof.Machine.execCeWrat addr value s
  | .ceDispctl on intensity => Sys2Proof.Machine.execCeDispctl on intensity s
  | .ceReadkeys => Sys2Proof.Machine.execCeReadkeys s
  | .dtSetdisp values => Sys2Proof.Machine.execDtSetdisp values s
  | .dtClear => Sys2Proof.Machine.execDtClear s
  | .dtStr2buf text dots font => Sys2Proof.Machine.execDtStr2buf text dots font s
  | .dtShowstr text dots font => Sys2Proof.Machine.execDtShowstr text dots font s
  | .dtShowhex number dots leadingZeros font => Sys2Proof.Machine.execDtShowhex number dots leadingZeros font s
  | .dtShowudec number dots leadingZeros font => Sys2Proof.Machine.execDtShowudec number dots leadingZeros font s
  | .dtShowsdec number dots leadingZeros font => Sys2Proof.Machine.execDtShowsdec number dots leadingZeros font s
  | .kdDecode rep => Sys2Proof.Machine.execKdDecode rep s
  | .kdGetkeys => Sys2Proof.Machine.execKdGetkeys s
  | .wireCmdWrite => Sys2Proof.Machine.execWireCmdWrite s
  | .wireAddr a => Sys2Proof.Machine.execWireAddr a s
  | .wireDispctl f n => Sys2Proof.Machine.execWireDispctl f n s
  | .wireReadKeys => Sys2Proof.Machine.execWireReadKeys s
  | .wireData d => Sys2Proof.Machine.execWireData d s

end Sys2Proof.Machine
end

