-- ==== Sys2Proof/Machine/Fetch.lean ====
section
/-! DEFINITION. How the step finds its work: the block has no program counter (10_state.md R30) and takes what the outside offers, one at a time (20_memory.md R51). -/

namespace Sys2Proof.Machine

/-- The work of one step. -/
inductive Work where
  /-- Nothing is offered. -/
  | idle
  /-- A reset with its configuration argument. -/
  | reset (c : Config)
  /-- A decoded instruction. -/
  | run (i : Instr)
  /-- A request with an unassigned opcode (R64). -/
  | illegal (op : Byte)
  /-- A request with operands that are not its opcode's (log 9). -/
  | malformed (op : Byte)
  deriving DecidableEq, Repr

/-- What a decoded code makes the step do. -/
def workOf : Decoded → Work
  | .instr i => .run i
  | .illegalOpcode op => .illegal op
  | .operandMismatch op => .malformed op

/-- The work the oldest input asks for, taken whole at the start of the step (R53). -/
def fetch (s : State) : Work :=
  match s.inputs with
  | [] => .idle
  | .reset c :: _ => .reset c
  | .code k :: _ => workOf (decode s.cfg k)

/-- The oldest input is met: a halted block lets it pass without taking it (R166, log 11). -/
def consume (s : State) : State := { s with inputs := s.inputs.tail }

/-- `s` with a code in front of every other input.
A wire byte exists only inside a window (R80), so its window is open (log 19). -/
def placeCode (s : State) (k : Code) : State :=
  match k with
  | .request _ => { s with inputs := .code k :: s.inputs }
  | .wire _ => { s with inputs := .code k :: s.inputs, stb := false }

/-- `s` with the code of an opcode-table word offered next (log 19). -/
def placeWord (s : State) (_nbits w : Nat) : State := placeCode s (tableCode (BitVec.ofNat 8 w))

end Sys2Proof.Machine
end

