-- ==== Sys2Proof/Machine/Step.lean ====
section
/-! DEFINITION. One step: meet the oldest input (00_scope.md R5, 20_memory.md R51). -/

namespace Sys2Proof.Machine

/-- One step of the block: one whole request (DESIGN CHOICE, log 21: nothing acts inside it). -/
def step (s : State) : Host.Outcome State Fault Refusal :=
  match fetch s with
  | .idle => waitForRequest s
  | .reset c => applyReset c (consume s)
  | .run i => exec i (consume s)
  | .illegal op => illegalOperation op (consume s)
  | .malformed op => malformedRequest op (consume s)

/-- `s` with the instruction of an opcode-table word offered next, so that the next step runs it (log 19). -/
def State.withFetchWord (s : State) (nbits w : Nat) : State := placeWord s nbits w

end Sys2Proof.Machine
end

