-- ==== Sys2Proof/Machine/Frames.lean ====
section
/-! DEFINITION. Readings of the trace: the frame view (41_bitbus.md R90, 00_scope.md R10) and the register writes it denotes (20_memory.md R55). -/

namespace Sys2Proof.Machine

/-- A byte of a frame (R10). -/
inductive Item where
  | tx (b : Byte)
  | rx (b : Byte)
  deriving DecidableEq, Repr

/-- The bytes of one strobe window; `closed` is false for a window still open at the end of the trace (R90). -/
structure Frame where
  items : List Item
  closed : Bool
  deriving DecidableEq, Repr

/-- The position of the scan inside the trace. -/
inductive Pos where
  /-- Strobe high. -/
  | between
  /-- In a window, between two bytes. -/
  | window (items : List Item)
  /-- In a byte being sent: the bits so far, and how many events of the running cell were met (0 to 5). -/
  | sending (items : List Item) (bits : List Bit) (n : Nat)
  /-- In a byte being received: the bits so far, and how many events of the running cell were met (0 to 4). -/
  | receiving (items : List Item) (bits : List Bit) (n : Nat)
  deriving DecidableEq, Repr

/-- A running scan: the windows closed so far, and the position. -/
structure Scan where
  done : List Frame
  pos : Pos
  deriving DecidableEq, Repr

/-- The byte whose bits are given, bit 0 first (R90). -/
def byteOfBits (bits : List Bit) : Byte :=
  bitCells.foldl (fun r k => setBit r k (bits.getD k false)) 0#8

/-- One event of a byte being sent (the cell of R81). -/
def scanSending (done : List Frame) (items : List Item) (bits : List Bit) (n : Nat) (e : Event) : Option Scan :=
  match n, e with
  | 0, .dioOut l => some ⟨done, .sending items (bits ++ [l]) 1⟩
  | 1, .wait .bit => some ⟨done, .sending items bits 2⟩
  | 2, .clk false => some ⟨done, .sending items bits 3⟩
  | 3, .wait .bit => some ⟨done, .sending items bits 4⟩
  | 4, .clk true => some ⟨done, .sending items bits 5⟩
  | 5, .wait .bit =>
    if bits.length = 8 then some ⟨done, .window (items ++ [.tx (byteOfBits bits)])⟩
    else some ⟨done, .sending items bits 0⟩
  | _, _ => none

/-- One event of a byte being received (the cell of R83). -/
def scanReceiving (done : List Frame) (items : List Item) (bits : List Bit) (n : Nat) (e : Event) : Option Scan :=
  match n, e with
  | 0, .clk false => if bits.length < 8 then some ⟨done, .receiving items bits 1⟩ else none
  | 1, .wait .bit => some ⟨done, .receiving items bits 2⟩
  | 2, .sample l => some ⟨done, .receiving items (bits ++ [l]) 3⟩
  | 3, .clk true => some ⟨done, .receiving items bits 4⟩
  | 4, .wait .bit => some ⟨done, .receiving items bits 0⟩
  | 0, .dioDir .output =>
    if bits.length = 8 then some ⟨done, .window (items ++ [.rx (byteOfBits bits)])⟩ else none
  | _, _ => none

/-- One event of the scan of R90; `none` where the trace does not parse (log 17). -/
def scanEvent (sc : Scan) (e : Event) : Option Scan :=
  match sc.pos with
  | .between =>
    match e with
    | .stb false => some ⟨sc.done, .window []⟩
    | .stb true | .clk _ | .dioDir _ | .dioOut _ | .sample _ | .wait _ => some sc
  | .window items =>
    match e with
    | .wait _ => some sc
    | .stb true => some ⟨sc.done ++ [⟨items, true⟩], .between⟩
    | .dioOut l => some ⟨sc.done, .sending items [l] 1⟩
    | .dioDir .input => some ⟨sc.done, .receiving items [] 0⟩
    | .stb false | .dioDir .output | .clk _ | .sample _ => none
  | .sending items bits n => scanSending sc.done items bits n e
  | .receiving items bits n => scanReceiving sc.done items bits n e

/-- The scan of a list of events from a position. -/
def scanFrom (sc : Scan) : List Event → Option Scan
  | [] => some sc
  | e :: es => (scanEvent sc e).bind fun sc => scanFrom sc es

/-- The scan of a whole trace. -/
def scanTrace (trace : List Event) : Option Scan := scanFrom ⟨[], .between⟩ trace

/-- The frames a finished scan stands for. -/
def framesOf (sc : Scan) : Option (List Frame) :=
  match sc.pos with
  | .between => some sc.done
  | .window items => some (sc.done ++ [⟨items, false⟩])
  | .sending _ _ _ | .receiving _ _ _ => none

/-- `Frames(trace)` (R90). -/
def frames (trace : List Event) : Option (List Frame) := (scanTrace trace).bind framesOf

/-- The address byte and the value of a write in one window (R55, OneWindow). -/
def writeOfFrame (c : Config) (f : Frame) : Option (Byte × Byte) :=
  match f with
  | ⟨[.tx k, .tx a, .tx v], true⟩ => if k = c.cmdWrite then some (a, v) else none
  | _ => none

/-- The address byte and the value of a write in two consecutive windows (R55, TwoWindows). -/
def writeOfPair (c : Config) (f g : Frame) : Option (Byte × Byte) :=
  match f, g with
  | ⟨[.tx k], true⟩, ⟨[.tx a, .tx v], true⟩ => if k = c.cmdWrite then some (a, v) else none
  | _, _ => none

/-- The writes of a list of windows under TwoWindows, `f` the window before them. -/
def writesAfter (c : Config) (f : Frame) : List Frame → List (Byte × Byte)
  | [] => []
  | g :: gs => (writeOfPair c f g).toList ++ writesAfter c g gs

/-- The register writes a list of windows denotes, as address byte and value, in order (R55). -/
def writesOf (c : Config) (fs : List Frame) : List (Byte × Byte) :=
  match c.writeFraming, fs with
  | .oneWindow, fs => fs.filterMap (writeOfFrame c)
  | .twoWindows, [] => []
  | .twoWindows, f :: gs => writesAfter c f gs

/-- The value of the last of some writes whose address byte is that of `a`. -/
def lastWriteTo (c : Config) (a : Byte) (ws : List (Byte × Byte)) : Option Byte :=
  ((ws.filter fun w => w.1 == addrByte c a).getLast?).map (·.2)

/-- `WrittenWord(trace, a)` (R55): `none` stands for `Unwritten`; the register space ends below `ADDR_SPACE` (R40).
DEDUCED (log 18): only closed windows write, and addresses with one address byte share a word. -/
def writtenWord (c : Config) (trace : List Event) (a : Byte) : Option Byte :=
  if a.toNat < c.addrSpace then (frames trace).bind fun fs => lastWriteTo c a (writesOf c fs) else none

/-- The display control a window denotes, if it is one control byte (R55).
DESIGN CHOICE (log 22, unsafe): where the byte fits both flags it denotes on = 1. DEDUCED (log 18): only a closed window
denotes one. -/
def displayControlOf (c : Config) (f : Frame) : Option (Bit × BitVec 3) :=
  match f with
  | ⟨[.tx b], true⟩ => ctrlFields c b
  | _ => none

end Sys2Proof.Machine
end

