-- ==== Sys2Proof/Safety.lean ====
section
/-! DEFINITION. The terms the statements use: a block that serves requests, the invariants of a state, and what a run may not do. -/

namespace Sys2Proof.Machine

/-- The configuration meets R7 and no fault is recorded, so the block takes a request (R7, R166). -/
abbrev State.Serving (s : State) : Prop := s.cfg.valid = true ∧ s.fault = none

/-- The block serves and no window is open: where a composite operation may start (R100). -/
abbrev State.Idle (s : State) : Prop := s.Serving ∧ s.stb = true

/-- The block serves and a window is open: where BB.SEND, BB.RECV and BB.TXN_END may run (R82, R84, R88). -/
abbrev State.InWindow (s : State) : Prop := s.Serving ∧ s.stb = false

/-- A recorded fault names its kind and the running request, and the strobe is released (R162, R165, R166). -/
def faultConsistent (s : State) : Bool :=
  s.fault.all fun r => s.stb && r.kind == kindOf r.reason && r.reqIndex == s.reqIndex

/-- What holds between requests: R7 of the configuration, R35 of the lines, R26 of the buffer, and a consistent record. -/
abbrev State.Inv (s : State) : Prop :=
  s.cfg.valid = true ∧ s.clk = true ∧ s.dioDir = .output ∧ s.buf.length = s.cfg.digits ∧ faultConsistent s = true

/-- The trace parses into whole bytes and windows, and its last window is open exactly while the strobe is low (R90, R31). -/
def traceParses (s : State) : Bool :=
  match scanTrace s.trace with
  | some ⟨_, .between⟩ => s.stb
  | some ⟨_, .window _⟩ => !s.stb
  | some ⟨_, .sending _ _ _⟩ | some ⟨_, .receiving _ _ _⟩ | none => false

/-- The `k`-th received byte from `s`, bit 0 from its first sample (R83, R85). -/
def drawnByte (s : State) (k : Nat) : Byte := byteOfBits (bitCells.map fun j => draw s (8 * k + j))

/-- The report the next key read draws from `s` (R106). -/
def drawnReport (s : State) : KeyReport := #v[drawnByte s 0, drawnByte s 1, drawnByte s 2, drawnByte s 3]

/-! ## The line view of the procedures (R10), as lists of events -/

/-- The six events of one sent cell (R81). -/
def sendCellEvents (l : Bit) : List Event :=
  [.dioOut l, .wait .bit, .clk false, .wait .bit, .clk true, .wait .bit]

/-- The 48 events of `sendByte` (R81). -/
def sendEvents (b : Byte) : List Event := bitCells.flatMap fun k => sendCellEvents (b.getLsbD k)

/-- The five events of one received cell (R83). -/
def recvCellEvents (l : Bit) : List Event := [.clk false, .wait .bit, .sample l, .clk true, .wait .bit]

/-- The 42 events of `receiveByte` (R83). -/
def recvEvents (r : Byte) : List Event :=
  [.dioDir .input] ++ (bitCells.flatMap fun k => recvCellEvents (r.getLsbD k)) ++ [.dioDir .output]

/-- A strobe window around some events (R86). -/
def windowEvents (body : List Event) : List Event :=
  [.stb false, .wait .bit] ++ body ++ [.stb true, .wait .bit]

/-- The window of `transaction { sendByte(b0); ... }`. -/
def sendWindowEvents (bs : List Byte) : List Event := windowEvents (bs.flatMap sendEvents)

/-- The events of `WriteFrame(a, v)` (R108, R103). -/
def writeEvents (c : Config) (a v : Byte) : List Event :=
  match c.writeFraming with
  | .oneWindow => sendWindowEvents [c.cmdWrite, addrByte c a, v]
  | .twoWindows => sendWindowEvents [c.cmdWrite] ++ sendWindowEvents [addrByte c a, v]

/-- The events of writing plane words from plane `j` on (R122). -/
def planeEvents (c : Config) (j : Nat) : List Byte → List Event
  | [] => []
  | w :: ws => writeEvents c (planeAddr j) w ++ planeEvents c (j + 1) ws

/-- The events of a key read that answers `rep` (R106, R107). -/
def readKeysEvents (c : Config) (rep : KeyReport) : List Event :=
  windowEvents (sendEvents c.cmdReadKeys ++
    rep.toList.flatMap fun r => [Event.wait .byte] ++ recvEvents r ++ [Event.wait .byte])

/-! ## Which operation does what -/

/-- The operations that start with the bus idle and put whole windows on it (R100). -/
def isComposite : Instr → Bool
  | .ceWrcmd | .ceWrat _ _ | .ceDispctl _ _ | .ceReadkeys => true
  | .dtSetdisp _ | .dtClear | .dtShowstr _ _ _ => true
  | .dtShowhex _ _ _ _ | .dtShowudec _ _ _ _ | .dtShowsdec _ _ _ _ => true
  | .kdGetkeys => true
  | .bbTxnBegin | .bbTxnEnd | .bbSend _ | .bbRecv | .dtStr2buf _ _ _ | .kdDecode _ => false
  | .wireCmdWrite | .wireAddr _ | .wireDispctl _ _ | .wireReadKeys | .wireData _ => false

/-- The writers of `buf` (R26). -/
def writesBuf : Instr → Bool
  | .dtStr2buf _ _ _ | .dtShowstr _ _ _ => true
  | .dtShowhex _ _ _ _ | .dtShowudec _ _ _ _ | .dtShowsdec _ _ _ _ => true
  | .bbTxnBegin | .bbTxnEnd | .bbSend _ | .bbRecv => false
  | .ceWrcmd | .ceWrat _ _ | .ceDispctl _ _ | .ceReadkeys => false
  | .dtSetdisp _ | .dtClear | .kdDecode _ | .kdGetkeys => false
  | .wireCmdWrite | .wireAddr _ | .wireDispctl _ _ | .wireReadKeys | .wireData _ => false

/-- The writer of `active` and `intensity` (R24, R25). -/
def writesControl : Instr → Bool
  | .ceDispctl _ _ => true
  | .bbTxnBegin | .bbTxnEnd | .bbSend _ | .bbRecv => false
  | .ceWrcmd | .ceWrat _ _ | .ceReadkeys => false
  | .dtSetdisp _ | .dtClear | .dtStr2buf _ _ _ | .dtShowstr _ _ _ => false
  | .dtShowhex _ _ _ _ | .dtShowudec _ _ _ _ | .dtShowsdec _ _ _ _ => false
  | .kdDecode _ | .kdGetkeys => false
  | .wireCmdWrite | .wireAddr _ | .wireDispctl _ _ | .wireReadKeys | .wireData _ => false

/-- The operations that take samples (R83, R106, R154). -/
def takesSamples : Instr → Bool
  | .bbRecv | .ceReadkeys | .kdGetkeys => true
  | .bbTxnBegin | .bbTxnEnd | .bbSend _ => false
  | .ceWrcmd | .ceWrat _ _ | .ceDispctl _ _ => false
  | .dtSetdisp _ | .dtClear | .dtStr2buf _ _ _ | .dtShowstr _ _ _ => false
  | .dtShowhex _ _ _ _ | .dtShowudec _ _ _ _ | .dtShowsdec _ _ _ _ => false
  | .kdDecode _ => false
  | .wireCmdWrite | .wireAddr _ | .wireDispctl _ _ | .wireReadKeys | .wireData _ => false

/-- The instructions that send a byte, and so drive the data latch (R23): all but the two strobe operations, BB.RECV and
the two that touch no line. -/
def sendsByte : Instr → Bool
  | .bbTxnBegin | .bbTxnEnd | .bbRecv | .dtStr2buf _ _ _ | .kdDecode _ => false
  | .bbSend _ | .ceWrcmd | .ceWrat _ _ | .ceDispctl _ _ | .ceReadkeys | .kdGetkeys => true
  | .dtSetdisp _ | .dtClear | .dtShowstr _ _ _ => true
  | .dtShowhex _ _ _ _ | .dtShowudec _ _ _ _ | .dtShowsdec _ _ _ _ => true
  | .wireCmdWrite | .wireAddr _ | .wireDispctl _ _ | .wireReadKeys | .wireData _ => true

/-- The "raised by" column of R161, read by operation. -/
def mayRaise : Instr → List Reason
  | .bbTxnBegin => [.txnOpen]
  | .bbTxnEnd | .bbSend _ | .bbRecv => [.noTxn]
  | .ceWrcmd | .ceReadkeys | .kdGetkeys | .dtClear => [.txnOpen]
  | .ceWrat _ _ => [.txnOpen, .oddAddress, .position]
  | .ceDispctl _ _ => [.txnOpen, .intensity]
  | .dtSetdisp _ => [.txnOpen, .len]
  | .dtStr2buf _ _ _ => [.fontShort, .fontIndexLow, .fontIndexHigh]
  | .dtShowstr _ _ _ => [.txnOpen, .fontShort, .fontIndexLow, .fontIndexHigh]
  | .dtShowhex _ _ _ _ | .dtShowudec _ _ _ _ | .dtShowsdec _ _ _ _ => [.txnOpen, .fontShort]
  | .kdDecode _ => []
  | .wireCmdWrite | .wireAddr _ | .wireDispctl _ _ | .wireReadKeys | .wireData _ => []

/-- The result an operation may leave when it completes (R27). -/
def resultFits (i : Instr) (r : Result) : Bool :=
  match i, r with
  | .bbRecv, .byte _ => true
  | .ceReadkeys, .report _ => true
  | .kdDecode _, .mask _ | .kdGetkeys, .mask _ => true
  | .dtStr2buf _ _ _, .buffer _ => true
  | .bbRecv, .none | .ceReadkeys, .none | .kdDecode _, .none | .kdGetkeys, .none | .dtStr2buf _ _ _, .none => false
  | _, .none => true
  | _, _ => false

/-! ## What the frames of an operation are (R71) -/

/-- `TXN[Tx(b0), Tx(b1), ...]`. -/
def txFrame (bs : List Byte) : Frame := ⟨bs.map .tx, true⟩

/-- `W(a, v)` (R71). -/
def writeFrames (c : Config) (a v : Byte) : List Frame :=
  match c.writeFraming with
  | .oneWindow => [txFrame [c.cmdWrite, addrByte c a, v]]
  | .twoWindows => [txFrame [c.cmdWrite], txFrame [addrByte c a, v]]

/-- `W(2*j, w0) W(2*(j+1), w1) ...`. -/
def planeFrames (c : Config) (j : Nat) : List Byte → List Frame
  | [] => []
  | w :: ws => writeFrames c (planeAddr j) w ++ planeFrames c (j + 1) ws

/-- `TXN[Tx(CMD_READ_KEYS), Rx(r0), Rx(r1), Rx(r2), Rx(r3)]`. -/
def readFrame (c : Config) (rep : KeyReport) : Frame := ⟨.tx c.cmdReadKeys :: rep.toList.map .rx, true⟩

/-- The frames of each composite operation, from the state it starts in (R71). -/
def framesPut (s : State) : Instr → List Frame
  | .ceWrcmd => [txFrame [s.cfg.cmdWrite]]
  | .ceWrat addr value => writeFrames s.cfg addr value
  | .ceDispctl on intensity =>
    match intensityOperand s.cfg intensity with
    | some n => [txFrame [ctrlByte s.cfg on n]]
    | none => []
  | .ceReadkeys | .kdGetkeys => [readFrame s.cfg (drawnReport s)]
  | .dtSetdisp values => planeFrames s.cfg 0 (transpose s.cfg.digits values)
  | .dtClear => planeFrames s.cfg 0 (List.replicate s.cfg.digits 0#8)
  | .dtShowstr text dots font => textFrames text dots font
  | .dtShowhex n dots lz font => textFrames (fmtHex s.cfg.fmtPadWidth n lz) dots font
  | .dtShowudec n dots lz font => textFrames (fmtUDec s.cfg.fmtPadWidth n lz) dots font
  | .dtShowsdec n dots lz font => textFrames (fmtSDec s.cfg.fmtPadWidth n lz) dots font
  | .bbTxnBegin | .bbTxnEnd | .bbSend _ | .bbRecv | .dtStr2buf _ _ _ | .kdDecode _ => []
  | .wireCmdWrite | .wireAddr _ | .wireDispctl _ _ | .wireReadKeys | .wireData _ => []
where
  /-- The frames of showing a text. -/
  textFrames (text : List Byte) (dots : Byte) (font : List Byte) : List Frame :=
    planeFrames s.cfg 0 (transpose s.cfg.digits (stringToBuffer s.cfg.digits text dots font))

/-- The operations whose completion can close a window that writes a register: those that put write frames, and
BB.TXN_END, which closes the host's own window (R55, R71). -/
def mayWriteRegisters : Instr → Bool
  | .ceWrat _ _ | .dtSetdisp _ | .dtClear | .dtShowstr _ _ _ | .bbTxnEnd => true
  | .dtShowhex _ _ _ _ | .dtShowudec _ _ _ _ | .dtShowsdec _ _ _ _ => true
  | .bbTxnBegin | .bbSend _ | .bbRecv | .ceWrcmd | .ceDispctl _ _ | .ceReadkeys => false
  | .dtStr2buf _ _ _ | .kdDecode _ | .kdGetkeys => false
  | .wireCmdWrite | .wireAddr _ | .wireDispctl _ _ | .wireReadKeys | .wireData _ => false

/-- The operations that build `buf` and show it (R131, R137, R138, R139). -/
def showsText : Instr → Bool
  | .dtShowstr _ _ _ | .dtShowhex _ _ _ _ | .dtShowudec _ _ _ _ | .dtShowsdec _ _ _ _ => true
  | .bbTxnBegin | .bbTxnEnd | .bbSend _ | .bbRecv => false
  | .ceWrcmd | .ceWrat _ _ | .ceDispctl _ _ | .ceReadkeys => false
  | .dtSetdisp _ | .dtClear | .dtStr2buf _ _ _ | .kdDecode _ | .kdGetkeys => false
  | .wireCmdWrite | .wireAddr _ | .wireDispctl _ _ | .wireReadKeys | .wireData _ => false

/-- The address bytes of the `D` planes differ. -/
def planesDistinct (c : Config) : Bool :=
  (List.range c.digits).all fun i => (List.range c.digits).all fun j =>
    addrByte c (planeAddr i) != addrByte c (planeAddr j) || i == j

/-- `s` after some values have been shown: `D` write frames, the last data bit left on the latch (R121, R122). -/
def planesShown (s : State) (values : List Byte) : State :=
  { s with stb := true, clk := true, result := .none, reqIndex := s.reqIndex + 1,
           dioOut := (planeWord s.cfg.digits values (s.cfg.digits - 1)).getLsbD 7,
           trace := s.trace ++ planeEvents s.cfg 0 (transpose s.cfg.digits values) }

/-! ## Reading a rendered number back -/

/-- The value of a digit character. -/
def charValue (c : Byte) : Nat := if c.toNat < 58 then c.toNat - 48 else c.toNat - 55

/-- The number a list of digit characters spells, most significant first. -/
def spelled (base : Nat) (ds : List Byte) : Nat := ds.foldl (fun n c => base * n + charValue c) 0

/-- '0'..'9', and 'A'..'F' in base 16. -/
def isDigitChar (base : Nat) (c : Byte) : Bool :=
  (decide (48 ≤ c.toNat) && decide (c.toNat < 58)) ||
  (base == 16 && decide (65 ≤ c.toNat) && decide (c.toNat < 71))

/-! ## Safe runs -/

/-- A step neither stops nor is refused. -/
def Completes (o : Host.Outcome State Fault Refusal) : Prop := ∃ t, o = .next t

end Sys2Proof.Machine
end

