-- ==== Sys2Proof/Certificates/Slice0/Obligations.lean ====
section
/-! DEFINITION. The statements for the provers. Each docstring names the rule or the sentence it formalises. -/

open Sys2Proof Sys2Proof.Machine

/-! ## Encodings -/

/-- A few requests and wire bytes, written out from R62, R63 and R65 to R69, decode to what they stand for. The two wire
bytes are read under the configuration argument of `State.reset` and in the model's order of readings, since each is a
data byte as well: both are the model's choice (log 3, log 8). -/
def Obligations.SampleWordsDecode : Prop :=
  decodeRequest ⟨0b00000001#8, []⟩ = .instr .bbTxnBegin ∧
  decodeRequest ⟨0b00010001#8, [.u8 0x02#8, .u8 0x5B#8]⟩ = .instr (.ceWrat 0x02#8 0x5B#8) ∧
  decodeRequest ⟨0b00100100#8, [.u32 0xBEEF#32, .u8 1#8, .bit true, .bytes [9#8]]⟩ =
    .instr (.dtShowhex 0xBEEF#32 1#8 true [9#8]) ∧
  decodeRequest ⟨0b00110001#8, []⟩ = .instr .kdGetkeys ∧
  decodeWire Config.argument 0b11001110#8 = .wireAddr 14#8 ∧
  decodeWire Config.argument 0b10001010#8 = .wireDispctl true 2#3

/-- Decoding the encoding of a request gives it back, every request that decodes is the encoding of what it decodes to,
and every reading of a wire byte sends that byte (R61 to R63, R65 to R69; the classification of a wire byte is the
model's choice, log 8). -/
def Obligations.DecodeAndEncodeAgree : Prop :=
  (∀ (c : Config) (i : Instr), i.wellFormed = true → i.isRequest = true → decode c (encode c i) = .instr i) ∧
  (∀ (c : Config) (r : Request) (i : Instr), decodeRequest r = .instr i →
    i.isRequest = true ∧ i.wellFormed = true ∧ encode c i = .request r) ∧
  (∀ (c : Config) (b : Byte), encode c (decodeWire c b) = .wire b ∧ (decodeWire c b).isRequest = false)

/-- Under the default wire constants of R6 and 8 digits, every well-formed command, address and control byte decodes to
itself, and so does every data byte that is none of them (the order of the readings is the model's choice, log 8). -/
def Obligations.DefaultWireBytesDecode : Prop :=
  ∀ (c : Config) (i : Instr), c.cmdWrite = 0x40#8 → c.cmdReadKeys = 0x42#8 → c.cmdDisplayBase = 0x80#8 →
    c.displayOnFlag = 0x08#8 → c.addrCmdBase = 0xC0#8 → c.digits = 8 →
    i.isRequest = false → i.wellFormed = true →
    (∀ d, i = .wireData d → d ≠ 0x40#8 ∧ d ≠ 0x42#8 ∧ d &&& 0xF0#8 ≠ 0x80#8 ∧ d &&& 0xF1#8 ≠ 0xC0#8) →
    decode c (encode c i) = .instr i

/-- R64: an opcode byte that R62 does not list raises `IllegalOperation(op)`, whatever its operands, before any line
activity but the strobe release of fault entry. -/
def Obligations.UnassignedOpcodeIsIllegal : Prop :=
  ∀ (s : State) (op : Byte) (operands : List Operand) (rest : List Input),
    (op = 0x00#8 ∨ (0x05#8 ≤ op ∧ op ≤ 0x0F#8) ∨ (0x14#8 ≤ op ∧ op ≤ 0x1F#8) ∨
      (0x27#8 ≤ op ∧ op ≤ 0x2F#8) ∨ 0x32#8 ≤ op) →
    s.Serving → s.inputs = .code (.request ⟨op, operands⟩) :: rest →
    step s = .next
      { s with inputs := rest, stb := true,
               trace := s.trace ++ (if s.stb then [] else [.stb true, .wait .bit]),
               fault := some ⟨.illegalOperation, .illegalOperation, op, s.reqIndex, .op op⟩ }

/-! ## The step -/

/-- When the oldest input decodes to an instruction, the step is that instruction's meaning on the state without that
input; when it is a reset, the step is that reset; with no input the block waits as it is. Nothing else stands around them
(how a request or a reset arrives is the model's choice, log 1, 12, 13). -/
def Obligations.StepRunsTheDecodedInstruction : Prop :=
  (∀ (s : State) (k : Code) (rest : List Input) (i : Instr),
    s.inputs = .code k :: rest → decode s.cfg k = .instr i → step s = exec i { s with inputs := rest }) ∧
  (∀ (s : State) (c : Config) (rest : List Input), s.inputs = .reset c :: rest →
    step s = applyReset c { s with inputs := rest }) ∧
  (∀ s : State, s.inputs = [] → s.cfg.valid = true → step s = .next s)

/-- A word of the opcode table placed in front is what the next step runs; a wire byte is placed in an open window (the
model's choice, log 19). -/
def Obligations.PlacedWordRunsNext : Prop :=
  ∀ (s : State) (w : Nat) (i : Instr), s.cfg = Config.argument → decodeTableWord 8 w = some i →
    step (s.withFetchWord 8 w) = exec i (if i.isRequest then s else { s with stb := false })

/-- R37, R191: a reset in any state sets every element of the state record to its reset value, and emits nothing. -/
def Obligations.ResetSetsEveryElement : Prop :=
  ∀ (s : State) (c : Config), c.valid = true → ∃ t, applyReset c s = .next t ∧
    t.cfg = c ∧ t.stb = true ∧ t.clk = true ∧ t.dioDir = .output ∧ t.dioOut = false ∧
    t.active = c.cfgActive ∧ t.intensity = c.cfgIntensity ∧
    (t.buf.length = c.digits ∧ ∀ b ∈ t.buf, b = 0#8) ∧
    t.result = .none ∧ t.fault = none ∧ t.trace = [] ∧ t.reqIndex = 0

/-- A configuration that breaks R7 is refused, by every instruction, by the step and by reset (how it is refused is the
model's choice, log 10). -/
def Obligations.BadConfigurationIsRefused : Prop :=
  (∀ (s : State) (i : Instr), s.cfg.valid = false → exec i s = .refused .invalidConfig) ∧
  (∀ s : State, s.cfg.valid = false → (∀ c rest, s.inputs ≠ .reset c :: rest) → step s = .refused .invalidConfig) ∧
  (∀ (s : State) (c : Config) (rest : List Input), s.inputs = .reset c :: rest → c.valid = false →
    step s = .refused .invalidConfig)

/-- The state after a reset meets the invariants, for every configuration that meets R7, that of `State.reset` among them
(its configuration argument is the model's choice, log 3). -/
def Obligations.ResetMeetsTheInvariants : Prop :=
  (State.reset.Inv ∧ traceParses State.reset = true) ∧
  ∀ c : Config, c.valid = true → (State.resetWith c).Inv ∧ traceParses (State.resetWith c) = true

/-! ## Faults -/

/-- R165: what fault entry writes, and that it writes nothing else. -/
def Obligations.FaultEntryEffect : Prop :=
  ∀ (op : Byte) (reason : Reason) (info : FaultInfo) (s : State),
    faultEntry op reason info s =
      { s with stb := true, trace := s.trace ++ (if s.stb then [] else [.stb true, .wait .bit]),
               fault := some { kind := if reason = .illegalOperation then .illegalOperation else .contractViolation,
                               reason := reason, opcode := op, reqIndex := s.reqIndex, info := info } }

/-- R163, R162: an instruction that raises a fault emits only the strobe release of fault entry, changes no state but
`fault` and an open strobe, and the record names its opcode and its place in the request stream. -/
def Obligations.FaultsAreEarlyAndPrecise : Prop :=
  ∀ (i : Instr) (s t : State), s.fault = none → exec i s = .next t → t.fault ≠ none →
    ∃ r op, t.fault = some r ∧ opcodeOf i = some op ∧ r.opcode = op ∧ r.reqIndex = s.reqIndex ∧
      r.kind = .contractViolation ∧
      t = { s with stb := true, trace := s.trace ++ (if s.stb then [] else [.stb true, .wait .bit]),
                   fault := some r }

/-- R161, the "raised by" column: an operation raises only the reasons of its rows, the numeric helpers no index reason
and KD.DECODE nothing. -/
def Obligations.OnlyListedReasonsAreRaised : Prop :=
  ∀ (i : Instr) (s t : State) (r : FaultRecord), s.fault = none → exec i s = .next t → t.fault = some r →
    r.reason ∈ mayRaise i

/-- R166: a halted block takes no request, emits no event and changes no state, and only reset clears the fault; the
request that faulted does not complete (what becomes of a request offered to it is the model's choice, log 11, and is not
claimed here). -/
def Obligations.HaltedBlockTakesNoRequest : Prop :=
  (∀ (s : State) (r : FaultRecord), s.cfg.valid = true → s.fault = some r →
    (∀ i, exec i s = .next s) ∧
    (∀ t, step s = .next t →
      (∃ inputs, t = { s with inputs := inputs }) ∨ ∃ c rest, s.inputs = .reset c :: rest)) ∧
  (∀ (op : Byte) (reason : Reason) (info : FaultInfo) (s : State),
    (faultEntry op reason info s).reqIndex = s.reqIndex ∧ (faultEntry op reason info s).result = s.result ∧
    (faultEntry op reason info s).fault ≠ none)

/-- R100: every composite operation finds the bus idle or raises `CV_TXN_OPEN` before it looks at its operands, and ends
with the strobe released. -/
def Obligations.CompositeOperationsNeedTheBusIdle : Prop :=
  ∀ (i : Instr) (s : State), isComposite i = true →
    (s.InWindow → ∃ op, opcodeOf i = some op ∧ exec i s = .next (faultEntry op .txnOpen .empty s)) ∧
    (s.Serving → ∀ t, exec i s = .next t → t.stb = true)

/-- No request is refused or stopped: under a configuration that meets R7 every operation answers a next state (R160: a
fault of the block is recorded in the state; R200: no request can hang). -/
def Obligations.EveryRequestAnswersANextState : Prop :=
  ∀ (i : Instr) (s : State), i.isRequest = true → s.cfg.valid = true → Completes (exec i s)

/-! ## BitBus -/

/-- R87: BB.TXN_BEGIN. -/
def Obligations.TxnBeginOpensAWindow : Prop :=
  ∀ s : State,
    (s.Idle → exec .bbTxnBegin s = .next
      { s with stb := false, trace := s.trace ++ [.stb false, .wait .bit], result := .none,
               reqIndex := s.reqIndex + 1 }) ∧
    (s.InWindow → exec .bbTxnBegin s = .next (faultEntry 0x01#8 .txnOpen .empty s)) ∧
    (s.InWindow → ∀ i, isComposite i = true →
      ∃ op t, exec i s = .next t ∧ t = faultEntry op .txnOpen .empty s ∧ t.stb = true)

/-- R88: BB.TXN_END. -/
def Obligations.TxnEndClosesTheWindow : Prop :=
  ∀ s : State,
    (s.InWindow → exec .bbTxnEnd s = .next
      { s with stb := true, trace := s.trace ++ [.stb true, .wait .bit], result := .none,
               reqIndex := s.reqIndex + 1 }) ∧
    (s.Idle → exec .bbTxnEnd s = .next
      { s with fault := some ⟨.contractViolation, .noTxn, 0x02#8, s.reqIndex, .empty⟩ })

/-- R82: BB.SEND; every byte value is sent, and the direction of DIO is not touched. -/
def Obligations.SendClocksOneByteOut : Prop :=
  ∀ (s : State) (b : Byte),
    (s.InWindow → exec (.bbSend b) s = .next
      { s with clk := true, dioOut := b.getLsbD 7, trace := s.trace ++ sendEvents b, result := .none,
               reqIndex := s.reqIndex + 1 }) ∧
    (s.Idle → exec (.bbSend b) s = .next
      { s with fault := some ⟨.contractViolation, .noTxn, 0x03#8, s.reqIndex, .empty⟩ })

/-- R84, R83: BB.RECV answers the byte its eight samples spell, bit 0 first, each recorded as an event, and leaves the
output latch (the environment's own fields are left open here; see ReceivedBitsAreTheDraws). -/
def Obligations.RecvAnswersTheSampledByte : Prop :=
  ∀ s : State,
    (s.InWindow → ∃ (r : Byte) (samples : List Bit) (drawn : Nat),
      exec .bbRecv s = .next
        { s with clk := true, dioDir := .output, trace := s.trace ++ recvEvents r, result := .byte r,
                 reqIndex := s.reqIndex + 1, samples := samples, drawn := drawn }) ∧
    (s.Idle → exec .bbRecv s = .next
      { s with fault := some ⟨.contractViolation, .noTxn, 0x04#8, s.reqIndex, .empty⟩ })

/-! ## CommandEncoder -/

/-- R101: CE.WRCMD. -/
def Obligations.WrcmdSendsTheWriteMode : Prop :=
  ∀ s : State,
    (s.Idle → exec .ceWrcmd s = .next
      { s with clk := true, dioOut := s.cfg.cmdWrite.getLsbD 7,
               trace := s.trace ++ sendWindowEvents [s.cfg.cmdWrite], result := .none,
               reqIndex := s.reqIndex + 1 }) ∧
    (s.InWindow → exec .ceWrcmd s = .next (faultEntry 0x10#8 .txnOpen .empty s))

/-- R102, R108: CE.WRAT, with parity checked before position. -/
def Obligations.WratWritesOneRegister : Prop :=
  ∀ (s : State) (addr value : Byte),
    (s.Idle → addr.toNat % 2 = 0 → addr.toNat < 2 * s.cfg.digits → exec (.ceWrat addr value) s = .next
      { s with clk := true, dioOut := value.getLsbD 7, trace := s.trace ++ writeEvents s.cfg addr value,
               result := .none, reqIndex := s.reqIndex + 1 }) ∧
    (s.Idle → addr.toNat % 2 = 1 → exec (.ceWrat addr value) s = .next
      { s with fault := some ⟨.contractViolation, .oddAddress, 0x11#8, s.reqIndex, .addr addr⟩ }) ∧
    (s.Idle → addr.toNat % 2 = 0 → 2 * s.cfg.digits ≤ addr.toNat → exec (.ceWrat addr value) s = .next
      { s with fault := some ⟨.contractViolation, .position, 0x11#8, s.reqIndex, .addr addr⟩ }) ∧
    (s.InWindow → exec (.ceWrat addr value) s = .next (faultEntry 0x11#8 .txnOpen .empty s))

/-- R104, R105: CE.DISPCTL sends the control byte and then records what it sent; above 7 it rejects or clamps and never
wraps. -/
def Obligations.DispctlSendsAndRecordsTheControl : Prop :=
  ∀ (s : State) (on : Bit) (x : Byte),
    (s.Idle → ∀ n : BitVec 3,
      (n.toNat = x.toNat ∨ (7 < x.toNat ∧ s.cfg.intensityPolicy = .clamp ∧ n = 7#3)) →
      exec (.ceDispctl on x) s = .next
        { s with clk := true,
                 dioOut := (ctrlByte s.cfg on n).getLsbD 7,
                 trace := s.trace ++ sendWindowEvents
                   [s.cfg.cmdDisplayBase ||| (if on then s.cfg.displayOnFlag else 0#8) ||| n.setWidth 8],
                 active := on, intensity := n, result := .none, reqIndex := s.reqIndex + 1 }) ∧
    (s.Idle → 7 < x.toNat → s.cfg.intensityPolicy = .reject → exec (.ceDispctl on x) s = .next
      { s with fault := some ⟨.contractViolation, .intensity, 0x12#8, s.reqIndex, .intensity x⟩ }) ∧
    (s.InWindow → exec (.ceDispctl on x) s = .next (faultEntry 0x12#8 .txnOpen .empty s))

/-- R106: CE.READKEYS sends the command, receives four bytes with a delay on both sides of each, and answers the report
(the environment's own fields are left open here; see ReceivedBitsAreTheDraws). -/
def Obligations.ReadkeysAnswersTheReport : Prop :=
  ∀ s : State,
    (s.Idle → ∃ (rep : KeyReport) (samples : List Bit) (drawn : Nat),
      exec .ceReadkeys s = .next
        { s with clk := true, dioDir := .output, dioOut := s.cfg.cmdReadKeys.getLsbD 7,
                 trace := s.trace ++ readKeysEvents s.cfg rep, result := .report rep,
                 reqIndex := s.reqIndex + 1, samples := samples, drawn := drawn }) ∧
    (s.InWindow → exec .ceReadkeys s = .next (faultEntry 0x13#8 .txnOpen .empty s))

/-- R107: no operation but the two key reads emits `Wait(BYTE)`, and each of those emits eight. -/
def Obligations.OnlyKeyReadsWaitBetweenBytes : Prop :=
  ∀ (i : Instr) (s t : State), s.Serving → exec i s = .next t → t.fault = none →
    t.trace.count (.wait .byte) = s.trace.count (.wait .byte) +
      (if i = .ceReadkeys ∨ i = .kdGetkeys then 8 else 0)

/-! ## DisplayTransform -/

/-- R120: bit `D-j-1` of plane word `i` is bit `i` of value `j`, and the bits below those of the last value are 0. -/
def Obligations.TransposePlacesEveryBit : Prop :=
  ∀ (digits : Nat) (values : List Byte), digits ≤ 8 → values.length ≤ digits →
    (transpose digits values).length = digits ∧
    ∀ i, i < digits → ∃ w, (transpose digits values)[i]? = some w ∧
      (∀ j v, values[j]? = some v → w.getLsbD (digits - j - 1) = v.getLsbD i) ∧
      (∀ k, k < digits - values.length ∨ digits ≤ k → w.getLsbD k = false)

/-- The laws of the transpose: at `len = D` over bytes of `D` bits it is a bijection, twice is the rotation by half a turn
and four times is the identity; padding with blanks changes nothing; and with fewer than eight digits the bits at `D` and
above of a value, the dot bit among them, reach no plane (the spec marks these laws as derived from the formula;
43_display_transform.md section 1, 90_conflicts.md C2). -/
def Obligations.TransposeLaws : Prop :=
  ∀ digits : Nat, digits ≤ 8 →
    (∀ v : List Byte, v.length = digits → ∀ a c, a < digits → c < digits →
      ((transpose digits (transpose digits v)).getD a 0#8).getLsbD c =
        (v.getD (digits - 1 - a) 0#8).getLsbD (digits - 1 - c)) ∧
    (∀ v : List Byte, v.length = digits → (∀ b ∈ v, b.toNat < 2 ^ digits) →
      transpose digits (transpose digits (transpose digits (transpose digits v))) = v) ∧
    (∀ v w : List Byte, v.length = digits → w.length = digits → (∀ b ∈ v, b.toNat < 2 ^ digits) →
      (∀ b ∈ w, b.toNat < 2 ^ digits) → transpose digits v = transpose digits w → v = w) ∧
    (∀ w : List Byte, w.length = digits → (∀ b ∈ w, b.toNat < 2 ^ digits) →
      ∃ v : List Byte, v.length = digits ∧ (∀ b ∈ v, b.toNat < 2 ^ digits) ∧ transpose digits v = w) ∧
    (∀ v : List Byte, v.length ≤ digits →
      transpose digits v = transpose digits (v ++ List.replicate (digits - v.length) 0#8)) ∧
    (∀ v w : List Byte, v.length = w.length →
      (∀ j k, k < digits → (v.getD j 0#8).getLsbD k = (w.getD j 0#8).getLsbD k) →
      transpose digits v = transpose digits w)

/-- R121, R122, R123: DT.SETDISP writes all `D` planes in ascending order and not `buf`; more than `D` values raise. -/
def Obligations.SetdispWritesThePlanes : Prop :=
  ∀ (s : State) (values : List Byte),
    (s.Idle → values.length ≤ s.cfg.digits → exec (.dtSetdisp values) s = .next (planesShown s values)) ∧
    (s.Idle → s.cfg.digits < values.length → exec (.dtSetdisp values) s = .next
      { s with fault := some ⟨.contractViolation, .len, 0x20#8, s.reqIndex, .len values.length⟩ }) ∧
    (s.InWindow → exec (.dtSetdisp values) s = .next (faultEntry 0x20#8 .txnOpen .empty s))

/-- R126: DT.CLEAR writes 0 to all `D` planes and leaves `buf`, `active` and `intensity`. -/
def Obligations.ClearWritesZeroPlanes : Prop :=
  ∀ s : State,
    (s.Idle → exec .dtClear s = .next
      { s with clk := true, dioOut := false,
               trace := s.trace ++ planeEvents s.cfg 0 (List.replicate s.cfg.digits 0#8),
               result := .none, reqIndex := s.reqIndex + 1 }) ∧
    (s.InWindow → exec .dtClear s = .next (faultEntry 0x21#8 .txnOpen .empty s))

/-- R127: the dot of position `i` is bit `D-i-1` of the mask, at bit 7, and the mask's bits at `D` and above are never
read. -/
def Obligations.DotsReadTheMaskInReverse : Prop :=
  ∀ (digits i : Nat) (mask : Byte), digits ≤ 8 → i < digits →
    (∀ k, (dotBitAt digits mask i).getLsbD k = (decide (k = 7) && mask.getLsbD (digits - i - 1))) ∧
    ∀ other : Byte, (∀ k, k < digits → other.getLsbD k = mask.getLsbD k) →
      dotBitAt digits other i = dotBitAt digits mask i

/-- R128: the buffer has `D` bytes, the font entry with its dot where there is a character, the dot alone past the end. -/
def Obligations.BufferHoldsFontEntriesAndDots : Prop :=
  ∀ (digits : Nat) (text font : List Byte) (dots : Byte) (i : Nat), i < digits →
    (stringToBuffer digits text dots font).length = digits ∧
    (∀ c e, text[i]? = some c → 32 ≤ c.toNat → font[c.toNat - 32]? = some e →
      (stringToBuffer digits text dots font)[i]? = some (e ||| dotBitAt digits dots i)) ∧
    (text.length ≤ i → (stringToBuffer digits text dots font)[i]? = some (dotBitAt digits dots i))

/-- Characters at `D` and above are neither shown nor checked; at a position past the end of the text the low seven bits
are 0 and bit 7 is the mask's (the spec marks both as derived; 43_display_transform.md sections 2 and 4). -/
def Obligations.TextOutsideTheDisplay : Prop :=
  ∀ (digits : Nat) (text font : List Byte) (dots : Byte),
    (stringToBuffer digits text dots font = stringToBuffer digits (text.take digits) dots font ∧
      fontChecks digits text font = fontChecks digits (text.take digits) font) ∧
    ∀ i, digits ≤ 8 → i < digits → text.length ≤ i →
      ∃ b, (stringToBuffer digits text dots font)[i]? = some b ∧ b &&& 0x7F#8 = 0#8 ∧
        b.getLsbD 7 = dots.getLsbD (digits - i - 1)

/-- With a font injective on some characters and its bit 7 clear there, a shown string of those characters can be read
back from the buffer, whatever the mask (the spec marks this as derived; 43_display_transform.md section 4, 90_conflicts.md
C6). -/
def Obligations.TextCanBeReadBack : Prop :=
  ∀ (digits : Nat) (text font alphabet : List Byte) (dots : Byte), digits ≤ 8 → text.length ≤ digits →
    (∀ c ∈ alphabet, 32 ≤ c.toNat ∧ ∃ e, font[c.toNat - 32]? = some e ∧ e.getLsbD 7 = false) →
    (∀ c ∈ alphabet, ∀ d ∈ alphabet, font[c.toNat - 32]? = font[d.toNat - 32]? → c = d) →
    (∀ c ∈ text, c ∈ alphabet) →
    ∀ (i : Nat) (c : Byte), text[i]? = some c → ∃ b, (stringToBuffer digits text dots font)[i]? = some b ∧
      ∀ d ∈ alphabet, font[d.toNat - 32]? = some (b &&& 0x7F#8) ↔ d = c

/-- R129: the font checks pass exactly when the font is long enough and every shown character has an entry, and
otherwise name the first failure: the short font, else the lowest position, a low code before a high one. A check that
fails does so before any event and before `buf` is written. -/
def Obligations.FontChecksNameTheFirstFailure : Prop :=
  ∀ (digits : Nat) (text font : List Byte),
    (fontChecks digits text font = none ↔
      96 ≤ font.length ∧ ∀ i c, i < digits → text[i]? = some c → 32 ≤ c.toNat ∧ c.toNat - 32 < font.length) ∧
    (font.length < 96 → fontChecks digits text font = some (.fontShort, .fontLen font.length)) ∧
    (∀ i c, 96 ≤ font.length → i < digits → text[i]? = some c →
      (∀ j d, j < i → text[j]? = some d → 32 ≤ d.toNat ∧ d.toNat - 32 < font.length) →
      (c.toNat < 32 → fontChecks digits text font = some (.fontIndexLow, .char i c)) ∧
      (32 ≤ c.toNat → font.length ≤ c.toNat - 32 → fontChecks digits text font = some (.fontIndexHigh, .char i c))) ∧
    (∀ (s : State) (dots : Byte) (i : Instr), s.Idle → s.cfg.digits = digits →
      (i = .dtStr2buf text dots font ∨ i = .dtShowstr text dots font) → fontChecks digits text font ≠ none →
      ∃ t, exec i s = .next t ∧ t.fault ≠ none ∧ t.trace = s.trace ∧ t.buf = s.buf)

/-- R130: DT.STR2BUF builds and answers the buffer with no event and whatever the strobe; a failed check raises. -/
def Obligations.Str2bufBuildsTheBuffer : Prop :=
  ∀ (s : State) (text font : List Byte) (dots : Byte), s.Serving →
    (fontChecks s.cfg.digits text font = none → exec (.dtStr2buf text dots font) s = .next
      { s with buf := stringToBuffer s.cfg.digits text dots font,
               result := .buffer (stringToBuffer s.cfg.digits text dots font),
               reqIndex := s.reqIndex + 1 }) ∧
    (∀ reason info, fontChecks s.cfg.digits text font = some (reason, info) →
      exec (.dtStr2buf text dots font) s = .next (faultEntry 0x22#8 reason info s))

/-- R131: DT.SHOWSTR builds the buffer and writes its planes; the strobe check comes before the font checks. -/
def Obligations.ShowstrBuildsAndShows : Prop :=
  ∀ (s : State) (text font : List Byte) (dots : Byte),
    (s.Idle → fontChecks s.cfg.digits text font = none →
      exec (.dtShowstr text dots font) s = .next
        { planesShown s (stringToBuffer s.cfg.digits text dots font) with
          buf := stringToBuffer s.cfg.digits text dots font }) ∧
    (s.Idle → ∀ reason info, fontChecks s.cfg.digits text font = some (reason, info) →
      exec (.dtShowstr text dots font) s = .next
        { s with fault := some ⟨.contractViolation, reason, 0x23#8, s.reqIndex, info⟩ }) ∧
    (s.InWindow → exec (.dtShowstr text dots font) s = .next (faultEntry 0x23#8 .txnOpen .empty s))

/-- R134: the hexadecimal rendering spells the number in uppercase digits, without a leading zero unless padded. -/
def Obligations.HexRenderingSpellsTheNumber : Prop :=
  ∀ (width : Nat) (n : Word32),
    spelled 16 (fmtHex width n false) = n.toNat ∧
    (∀ c ∈ fmtHex width n false, isDigitChar 16 c = true) ∧
    (fmtHex width n false).length ≤ 8 ∧
    ((fmtHex width n false).head? = some 48#8 ↔ n = 0#32) ∧ (n = 0#32 → fmtHex width n false = [48#8]) ∧
    fmtHex width n true =
      List.replicate (width - (fmtHex width n false).length) 48#8 ++ fmtHex width n false

/-- R135: the same in base 10. -/
def Obligations.UnsignedRenderingSpellsTheNumber : Prop :=
  ∀ (width : Nat) (n : Word32),
    spelled 10 (fmtUDec width n false) = n.toNat ∧
    (∀ c ∈ fmtUDec width n false, isDigitChar 10 c = true) ∧
    (fmtUDec width n false).length ≤ 10 ∧
    ((fmtUDec width n false).head? = some 48#8 ↔ n = 0#32) ∧ (n = 0#32 → fmtUDec width n false = [48#8]) ∧
    fmtUDec width n true =
      List.replicate (width - (fmtUDec width n false).length) 48#8 ++ fmtUDec width n false

/-- R136: the signed rendering is the sign, if negative, then the padding, then the digits of the magnitude. -/
def Obligations.SignedRenderingSpellsTheNumber : Prop :=
  ∀ (width : Nat) (n : Word32), ∃ sign ds : List Byte,
    sign = (if n.toInt < 0 then [45#8] else []) ∧
    spelled 10 ds = n.toInt.natAbs ∧ (∀ c ∈ ds, isDigitChar 10 c = true) ∧ ds.length ≤ 10 ∧
    (ds.head? = some 48#8 ↔ n = 0#32) ∧ (n = 0#32 → ds = [48#8]) ∧
    fmtSDec width n false = sign ++ ds ∧
    fmtSDec width n true = sign ++ List.replicate (width - sign.length - ds.length) 48#8 ++ ds

/-- R137: DT.SHOWHEX shows the rendering; only the strobe and a short font stop it. -/
def Obligations.ShowhexShowsTheRendering : Prop :=
  ∀ (s : State) (n : Word32) (dots : Byte) (lz : Bit) (font : List Byte),
    (s.Idle → 96 ≤ font.length → exec (.dtShowhex n dots lz font) s = .next
      { planesShown s (stringToBuffer s.cfg.digits (fmtHex s.cfg.fmtPadWidth n lz) dots font) with
        buf := stringToBuffer s.cfg.digits (fmtHex s.cfg.fmtPadWidth n lz) dots font }) ∧
    (s.Idle → font.length < 96 → exec (.dtShowhex n dots lz font) s = .next
      { s with fault := some ⟨.contractViolation, .fontShort, 0x24#8, s.reqIndex, .fontLen font.length⟩ }) ∧
    (s.InWindow → exec (.dtShowhex n dots lz font) s = .next (faultEntry 0x24#8 .txnOpen .empty s))

/-- R138: DT.SHOWUDEC shows the rendering; only the strobe and a short font stop it. -/
def Obligations.ShowudecShowsTheRendering : Prop :=
  ∀ (s : State) (n : Word32) (dots : Byte) (lz : Bit) (font : List Byte),
    (s.Idle → 96 ≤ font.length → exec (.dtShowudec n dots lz font) s = .next
      { planesShown s (stringToBuffer s.cfg.digits (fmtUDec s.cfg.fmtPadWidth n lz) dots font) with
        buf := stringToBuffer s.cfg.digits (fmtUDec s.cfg.fmtPadWidth n lz) dots font }) ∧
    (s.Idle → font.length < 96 → exec (.dtShowudec n dots lz font) s = .next
      { s with fault := some ⟨.contractViolation, .fontShort, 0x25#8, s.reqIndex, .fontLen font.length⟩ }) ∧
    (s.InWindow → exec (.dtShowudec n dots lz font) s = .next (faultEntry 0x25#8 .txnOpen .empty s))

/-- R139: DT.SHOWSDEC shows the rendering; only the strobe and a short font stop it. -/
def Obligations.ShowsdecShowsTheRendering : Prop :=
  ∀ (s : State) (n : Word32) (dots : Byte) (lz : Bit) (font : List Byte),
    (s.Idle → 96 ≤ font.length → exec (.dtShowsdec n dots lz font) s = .next
      { planesShown s (stringToBuffer s.cfg.digits (fmtSDec s.cfg.fmtPadWidth n lz) dots font) with
        buf := stringToBuffer s.cfg.digits (fmtSDec s.cfg.fmtPadWidth n lz) dots font }) ∧
    (s.Idle → font.length < 96 → exec (.dtShowsdec n dots lz font) s = .next
      { s with fault := some ⟨.contractViolation, .fontShort, 0x26#8, s.reqIndex, .fontLen font.length⟩ }) ∧
    (s.InWindow → exec (.dtShowsdec n dots lz font) s = .next (faultEntry 0x26#8 .txnOpen .empty s))

/-! ## KeyScanDecoder -/

/-- R150: bit `j` of a remapped byte is set exactly when some set bit of the raw byte moves there. -/
def Obligations.RemapMovesEachBit : Prop :=
  ∀ (dest : KeyRemap) (r : Byte) (j : Nat), (h : j < 8) →
    ((remap dest r).getLsbD j = true ↔
      ∃ s : Fin 8, r.getLsbD s = true ∧ dest[s] = some ⟨j, h⟩)

/-- Where each bit of a remapped byte lands in the mask, and that nothing else does; with a table that is injective and
uses only the outputs 0, 1, 4 and 5 each used report bit has a mask bit of its own (the spec marks both as derived;
44_key_scan_decoder.md, the paragraph on overlap and loss). -/
def Obligations.FoldLandsEachNibbleBit : Prop :=
  (∀ (rec : Byte) (k j : Nat), k < 4 → j < 16 →
    ((foldByte rec k).getLsbD j = true ↔
      ∃ b, b < 8 ∧ rec.getLsbD b = true ∧ j = (if b < 4 then b + 2 * k else 8 + (b - 4) + 2 * k))) ∧
  ∀ (dest : KeyRemap) (rep : KeyReport),
    (∀ a b : Fin 8, ∀ d, dest[a] = some d → dest[b] = some d → a = b) →
    (∀ (a : Fin 8) (d : Fin 8), dest[a] = some d → d = 0 ∨ d = 1 ∨ d = 4 ∨ d = 5) →
    ∀ (k : Fin 4) (a d : Fin 8), dest[a] = some d →
      (decodeKeys dest rep).getLsbD (if d.val < 4 then d.val + 2 * k.val else 8 + (d.val - 4) + 2 * k.val) =
        (rep[k]).getLsbD a

/-- R152, R153, R155: KD.DECODE answers the mask of the given bytes, in every serving state, with no event; the mask depends on
the bytes and the remap table alone, and an all-zero report gives 0 under every table. -/
def Obligations.DecodeAnswersTheMask : Prop :=
  (∀ (s : State) (rep : KeyReport), s.Serving → exec (.kdDecode rep) s = .next
    { s with result := .mask (foldByte (remap s.cfg.keyRemap rep[0]) 0 ||| foldByte (remap s.cfg.keyRemap rep[1]) 1 |||
               foldByte (remap s.cfg.keyRemap rep[2]) 2 ||| foldByte (remap s.cfg.keyRemap rep[3]) 3),
             reqIndex := s.reqIndex + 1 }) ∧
  (∀ s : State, s.Serving → ∃ t, exec (.kdDecode #v[0#8, 0#8, 0#8, 0#8]) s = .next t ∧ t.result = .mask 0#16)

/-- R154: KD.GETKEYS does on the bus what CE.READKEYS does and answers the decoded mask of the received report (the
environment's own fields are left open here; see ReceivedBitsAreTheDraws). -/
def Obligations.GetkeysAnswersTheDecodedMask : Prop :=
  ∀ s : State,
    (s.Idle → ∃ (rep : KeyReport) (samples : List Bit) (drawn : Nat),
      exec .kdGetkeys s = .next
        { s with clk := true, dioDir := .output, dioOut := s.cfg.cmdReadKeys.getLsbD 7,
                 trace := s.trace ++ readKeysEvents s.cfg rep, result := .mask (decodeKeys s.cfg.keyRemap rep),
                 reqIndex := s.reqIndex + 1, samples := samples, drawn := drawn }) ∧
    (s.InWindow → exec .kdGetkeys s = .next (faultEntry 0x31#8 .txnOpen .empty s))

/-- Every received bit is the next draw, bit 0 of each byte first, and each draw is taken once; so if the environment
answers the bits of some bytes, those are the bytes received (41_bitbus.md, the paragraph on draws; that the draws stand in
a list and then in a free value is the model's choice, log 2). -/
def Obligations.ReceivedBitsAreTheDraws : Prop :=
  (∀ s : State, s.InWindow → ∃ t r, exec .bbRecv s = .next t ∧ t.result = .byte r ∧
    (∀ k, k < 8 → r.getLsbD k = draw s k) ∧ t.samples = s.samples.drop 8 ∧ t.drawn = s.drawn + 8) ∧
  (∀ s : State, s.Idle → ∃ (t u : State) (rep : KeyReport),
    exec .ceReadkeys s = .next t ∧ t.result = .report rep ∧
    exec .kdGetkeys s = .next u ∧ u.result = .mask (decodeKeys s.cfg.keyRemap rep) ∧
    (∀ k, (h : k < 4) → ∀ j, j < 8 → (rep[k]).getLsbD j = draw s (8 * k + j)) ∧
    t.samples = s.samples.drop 32 ∧ t.drawn = s.drawn + 32 ∧
    u.samples = s.samples.drop 32 ∧ u.drawn = s.drawn + 32) ∧
  (∀ (s : State) (rep : KeyReport) (rest : List Bit), s.Idle →
    s.samples = (rep.toList.flatMap fun b => (List.range 8).map fun k => b.getLsbD k) ++ rest →
    (∃ t, exec .ceReadkeys s = .next t ∧ t.result = .report rep ∧ t.samples = rest) ∧
    (∃ t, exec .kdGetkeys s = .next t ∧ t.result = .mask (decodeKeys s.cfg.keyRemap rep) ∧ t.samples = rest))

/-! ## Wire bytes -/

/-- A wire byte in an open window is clocked out and does nothing else (R65 to R69 with R81; that a wire byte is run as a
step is the model's choice, log 6). -/
def Obligations.WireBytesAreClockedOut : Prop :=
  ∀ (s : State) (i : Instr) (b : Byte), s.InWindow →
    (i = .wireCmdWrite ∧ b = s.cfg.cmdWrite) ∨
    (∃ a : Byte, i = .wireAddr a ∧ b = s.cfg.addrCmdBase ||| a ∧ a.toNat % 2 = 0 ∧ a.toNat < 2 * s.cfg.digits) ∨
    (∃ f n, i = .wireDispctl f n ∧
      b = s.cfg.cmdDisplayBase ||| (if f then s.cfg.displayOnFlag else 0#8) ||| n.setWidth 8) ∨
    (i = .wireReadKeys ∧ b = s.cfg.cmdReadKeys) ∨ i = .wireData b →
    exec i s = .next
      { s with clk := true, dioOut := b.getLsbD 7, trace := s.trace ++ sendEvents b }

/-- Where a wire byte stops: outside a window, and at an address the block never sends (R80, R42; the two stops are the
model's choice, log 7). -/
def Obligations.WireBytesStopOutsideTheirFormat : Prop :=
  (∀ (s : State) (a : Byte), s.Serving → (a.toNat % 2 = 1 ∨ 2 * s.cfg.digits ≤ a.toNat) →
    exec (.wireAddr a) s = .fault .reservedAddressByte) ∧
  (∀ (s : State) (i : Instr), s.Idle → i.isRequest = false →
    (∀ a, i = .wireAddr a → a.toNat % 2 = 0 ∧ a.toNat < 2 * s.cfg.digits) →
    exec i s = .fault .sendOutsideWindow)

/-! ## What no instruction changes, and what each completion counts -/

/-- The frame of every instruction, element by element. The configuration and the pending inputs stay. `active`,
`intensity`, `buf`, the samples and `dioDir` stay but for their named writers; `dioOut` stays where no byte is sent, and `clk`
where none is moved; `stb` stays but for the two strobe operations and fault entry; `result` and `reqIndex` stay for a wire
byte and where a fault is recorded after the instruction; `fault` changes by fault entry only; the trace only grows (R21 to
R30, R165; that a wire byte counts as no request is the model's choice, log 6). -/
def Obligations.FrameOfEveryInstruction : Prop :=
  ∀ (i : Instr) (s t : State), exec i s = .next t →
    t.cfg = s.cfg ∧ t.inputs = s.inputs ∧
    (writesControl i = false → t.active = s.active ∧ t.intensity = s.intensity) ∧
    (writesBuf i = false → t.buf = s.buf) ∧
    (takesSamples i = false → t.samples = s.samples ∧ t.drawn = s.drawn ∧ t.dioDir = s.dioDir) ∧
    (sendsByte i = false → t.dioOut = s.dioOut) ∧
    (sendsByte i = false → i ≠ .bbRecv → t.clk = s.clk) ∧
    (i ≠ .bbTxnBegin → i ≠ .bbTxnEnd → t.fault = s.fault → t.stb = s.stb) ∧
    (i.isRequest = false ∨ t.fault ≠ none → t.result = s.result ∧ t.reqIndex = s.reqIndex) ∧
    (t.fault = s.fault ∨ s.fault = none ∧
      ∃ op reason info, opcodeOf i = some op ∧ t = faultEntry op reason info s) ∧
    ∃ events, t.trace = s.trace ++ events

/-- R30, R27: a request that completes counts itself and leaves a result of its own kind; one that faults changes
neither; reset sets both. -/
def Obligations.CompletionCountsAndAnswers : Prop :=
  (∀ (i : Instr) (s t : State), i.isRequest = true → s.fault = none → exec i s = .next t →
    (t.fault = none → t.reqIndex = s.reqIndex + 1 ∧ resultFits i t.result = true) ∧
    (t.fault ≠ none → t.reqIndex = s.reqIndex ∧ t.result = s.result)) ∧
  (∀ (i : Instr) (s t : State), s.fault ≠ none → exec i s = .next t → t.reqIndex = s.reqIndex ∧ t.result = s.result) ∧
  (∀ c : Config, (State.resetWith c).reqIndex = 0 ∧ (State.resetWith c).result = .none)

/-- How many events each completed request adds (the spec marks the table as derived; 70_reset_and_hazards.md
section 3). -/
def Obligations.EventCountsPerRequest : Prop :=
  ∀ (i : Instr) (s t : State), i.isRequest = true → s.Serving → exec i s = .next t → t.fault = none →
    t.trace.length = s.trace.length +
      (match i with
       | .bbTxnBegin | .bbTxnEnd => 2
       | .bbSend _ => 48
       | .bbRecv => 42
       | .ceWrcmd | .ceDispctl _ _ => 52
       | .ceWrat _ _ => if s.cfg.writeFraming = .oneWindow then 148 else 152
       | .ceReadkeys | .kdGetkeys => 228
       | .dtStr2buf _ _ _ | .kdDecode _ => 0
       | _ => (if s.cfg.writeFraming = .oneWindow then 148 else 152) * s.cfg.digits)

/-- Only the operations that receive depend on the environment: the others run the same whatever it would answer (R33,
R85). -/
def Obligations.OnlyReadsObserveTheEnvironment : Prop :=
  ∀ (i : Instr) (s t : State) (samples : List Bit) (drawn : Nat), takesSamples i = false → exec i s = .next t →
    exec i { s with samples := samples, drawn := drawn } = .next { t with samples := samples, drawn := drawn }

/-! ## Invariants of every step -/

/-- Every step keeps the idle line state, the buffer's length, a configuration that meets R7 and a consistent fault record
(the spec marks R35 as derived; 10_state.md). -/
def Obligations.StepKeepsTheInvariant : Prop :=
  ∀ s t : State, s.Inv → step s = .next t → t.Inv

/-- Every step keeps the trace a sequence of whole bytes in whole windows, the last one open exactly while the strobe is
low: every trace the rules produce parses (R90; what stands between windows is dropped, log 17). -/
def Obligations.StepKeepsTheTraceParsable : Prop :=
  ∀ s t : State, traceParses s = true → step s = .next t → traceParses t = true

/-! ## The frame view and the registers it writes -/

/-- Every composite operation that completes adds exactly the frames of R71 (the spec marks the table as derived;
30_encoding.md section 4); and the one frame CE.DISPCTL adds denotes the display control it records, where the base leaves
the flag's bit clear (R55; where it does not, what the frame denotes is the model's choice, log 22, and is not claimed). -/
def Obligations.CompositeOperationsPutTheirFrames : Prop :=
  ∀ (i : Instr) (s t : State) (fs : List Frame), isComposite i = true → s.Idle → traceParses s = true →
    frames s.trace = some fs → exec i s = .next t → t.fault = none →
    frames t.trace = some (fs ++ framesPut s i) ∧
    ∀ on x, i = .ceDispctl on x → s.cfg.cmdDisplayBase &&& s.cfg.displayOnFlag = 0#8 →
      ∃ f, frames t.trace = some (fs ++ [f]) ∧ displayControlOf t.cfg f = some (on, t.intensity) ∧ t.active = on

/-- The raw operations open a window, add one byte to it, and close it (R87, R82, R84, R88, R90). -/
def Obligations.RawOperationsBuildOneFrame : Prop :=
  ∀ (s t : State) (fs : List Frame) (items : List Item), s.Serving → traceParses s = true →
    (s.stb = true → frames s.trace = some fs → exec .bbTxnBegin s = .next t →
      frames t.trace = some (fs ++ [⟨[], false⟩])) ∧
    (s.stb = false → frames s.trace = some (fs ++ [⟨items, false⟩]) →
      (∀ b, exec (.bbSend b) s = .next t → frames t.trace = some (fs ++ [⟨items ++ [.tx b], false⟩])) ∧
      (∀ r, exec .bbRecv s = .next t → t.result = .byte r →
        frames t.trace = some (fs ++ [⟨items ++ [.rx r], false⟩])) ∧
      (exec .bbTxnEnd s = .next t → frames t.trace = some (fs ++ [⟨items, true⟩])))

/-- R55: after CE.WRAT the written word at its address is its value, and at every address with another address byte it is
what it was (that addresses with one address byte share a word is the model's reading, log 18). -/
def Obligations.WratSetsTheWrittenWord : Prop :=
  ∀ (s t : State) (addr value : Byte), s.Idle → traceParses s = true → exec (.ceWrat addr value) s = .next t →
    t.fault = none →
    writtenWord t.cfg t.trace addr = some value ∧
    ∀ a, addrByte s.cfg a ≠ addrByte s.cfg addr → writtenWord t.cfg t.trace a = writtenWord s.cfg s.trace a

/-- After DT.CLEAR the written word of every plane is 0 (R126 with R55), and other address bytes are as before (that
addresses with one address byte share a word is the model's reading, log 18). -/
def Obligations.ClearZeroesEveryWrittenWord : Prop :=
  ∀ s t : State, s.Idle → traceParses s = true → exec .dtClear s = .next t →
    (∀ i, i < s.cfg.digits → writtenWord t.cfg t.trace (planeAddr i) = some 0#8) ∧
    ∀ a, (∀ i, i < s.cfg.digits → addrByte s.cfg a ≠ addrByte s.cfg (planeAddr i)) →
      writtenWord t.cfg t.trace a = writtenWord s.cfg s.trace a

/-- After DT.SETDISP, or an operation that shows a text or a number, the written word of plane `i` is plane word `i` of
the values, or of the new `buf`, and other address bytes are as before (R43, R55, R121, R131; that addresses with one address
byte share a word is the model's reading, log 18, so where two planes share one the later would win). -/
def Obligations.ShownPlanesAreTheWrittenWords : Prop :=
  ∀ (s t : State) (i : Instr) (values : List Byte), s.Idle → traceParses s = true → planesDistinct s.cfg = true →
    (i = .dtSetdisp values ∨ showsText i = true ∧ values = t.buf) → exec i s = .next t → t.fault = none →
    (∀ p, p < s.cfg.digits →
      writtenWord t.cfg t.trace (planeAddr p) = some (planeWord s.cfg.digits values p)) ∧
    ∀ a, (∀ p, p < s.cfg.digits → addrByte s.cfg a ≠ addrByte s.cfg (planeAddr p)) →
      writtenWord t.cfg t.trace a = writtenWord s.cfg s.trace a

/-- An instruction that puts no write frame leaves every written word. For BB.SEND and the wire bytes in an open window
this rests on the model's reading that only a closed window writes (log 18, DEDUCED), which R55 does not say; for the
others it follows from R55 and the frames of R71. -/
def Obligations.OtherInstructionsWriteNoRegister : Prop :=
  ∀ (i : Instr) (s t : State), mayWriteRegisters i = false → traceParses s = true → exec i s = .next t →
    t.fault = s.fault → ∀ a, writtenWord t.cfg t.trace a = writtenWord s.cfg s.trace a
end

