-- ==== Sys2Proof/Laws/Decode.lean ====
section
/-! SUPPORT. Inversion of the decoder: what each operand reader accepts, and what a byte's field readers give back. -/

namespace Sys2Proof

variable {r : Request} {i : Instr}

/-! What each operand reader answers: the instruction of its operands, or the mismatch of its opcode. -/

theorem takeNone_instr {j : Instr} (h : takeNone r j = .instr i) :
    r.operands = [] ∧ i = j := by
  unfold takeNone at h
  split at h
  · cases h; exact ⟨by assumption, rfl⟩
  · cases h

theorem takeNone_reject {j : Instr} : (∃ k, takeNone r j = .instr k) ∨ takeNone r j = .operandMismatch r.op := by
  unfold takeNone
  split
  · exact .inl ⟨_, rfl⟩
  · exact .inr rfl

theorem takeByte_instr {f : Byte → Instr} (h : takeByte r f = .instr i) :
    ∃ b, r.operands = [.u8 b] ∧ i = f b := by
  unfold takeByte at h
  split at h
  · cases h; exact ⟨_, by assumption, rfl⟩
  · cases h

theorem takeByte_reject {f : Byte → Instr} : (∃ k, takeByte r f = .instr k) ∨ takeByte r f = .operandMismatch r.op := by
  unfold takeByte
  split
  · exact .inl ⟨_, rfl⟩
  · exact .inr rfl

theorem takeTwoBytes_instr {f : Byte → Byte → Instr} (h : takeTwoBytes r f = .instr i) :
    ∃ a b, r.operands = [.u8 a, .u8 b] ∧ i = f a b := by
  unfold takeTwoBytes at h
  split at h
  · cases h; exact ⟨_, _, by assumption, rfl⟩
  · cases h

theorem takeTwoBytes_reject {f : Byte → Byte → Instr} : (∃ k, takeTwoBytes r f = .instr k) ∨ takeTwoBytes r f = .operandMismatch r.op := by
  unfold takeTwoBytes
  split
  · exact .inl ⟨_, rfl⟩
  · exact .inr rfl

theorem takeBitByte_instr {f : Bit → Byte → Instr} (h : takeBitByte r f = .instr i) :
    ∃ a b, r.operands = [.bit a, .u8 b] ∧ i = f a b := by
  unfold takeBitByte at h
  split at h
  · cases h; exact ⟨_, _, by assumption, rfl⟩
  · cases h

theorem takeBitByte_reject {f : Bit → Byte → Instr} : (∃ k, takeBitByte r f = .instr k) ∨ takeBitByte r f = .operandMismatch r.op := by
  unfold takeBitByte
  split
  · exact .inl ⟨_, rfl⟩
  · exact .inr rfl

theorem takeList_instr {f : List Byte → Instr} (h : takeList r f = .instr i) :
    ∃ v, r.operands = [.bytes v] ∧ i = f v := by
  unfold takeList at h
  split at h
  · cases h; exact ⟨_, by assumption, rfl⟩
  · cases h

theorem takeList_reject {f : List Byte → Instr} : (∃ k, takeList r f = .instr k) ∨ takeList r f = .operandMismatch r.op := by
  unfold takeList
  split
  · exact .inl ⟨_, rfl⟩
  · exact .inr rfl

theorem takeText_instr {f : List Byte → Byte → List Byte → Instr} (h : takeText r f = .instr i) :
    ∃ t d o, r.operands = [.bytes t, .u8 d, .bytes o] ∧ i = f t d o := by
  unfold takeText at h
  split at h
  · cases h; exact ⟨_, _, _, by assumption, rfl⟩
  · cases h

theorem takeText_reject {f : List Byte → Byte → List Byte → Instr} : (∃ k, takeText r f = .instr k) ∨ takeText r f = .operandMismatch r.op := by
  unfold takeText
  split
  · exact .inl ⟨_, rfl⟩
  · exact .inr rfl

theorem takeUnsigned_instr {f : Word32 → Byte → Bit → List Byte → Instr} (h : takeUnsigned r f = .instr i) :
    ∃ n d z o, r.operands = [.u32 n, .u8 d, .bit z, .bytes o] ∧ i = f n d z o := by
  unfold takeUnsigned at h
  split at h
  · cases h; exact ⟨_, _, _, _, by assumption, rfl⟩
  · cases h

theorem takeUnsigned_reject {f : Word32 → Byte → Bit → List Byte → Instr} : (∃ k, takeUnsigned r f = .instr k) ∨ takeUnsigned r f = .operandMismatch r.op := by
  unfold takeUnsigned
  split
  · exact .inl ⟨_, rfl⟩
  · exact .inr rfl

theorem takeSigned_instr {f : Word32 → Byte → Bit → List Byte → Instr} (h : takeSigned r f = .instr i) :
    ∃ n d z o, r.operands = [.i32 n, .u8 d, .bit z, .bytes o] ∧ i = f n d z o := by
  unfold takeSigned at h
  split at h
  · cases h; exact ⟨_, _, _, _, by assumption, rfl⟩
  · cases h

theorem takeSigned_reject {f : Word32 → Byte → Bit → List Byte → Instr} : (∃ k, takeSigned r f = .instr k) ∨ takeSigned r f = .operandMismatch r.op := by
  unfold takeSigned
  split
  · exact .inl ⟨_, rfl⟩
  · exact .inr rfl

theorem takeReport_instr {f : KeyReport → Instr} (h : takeReport r f = .instr i) :
    ∃ p, r.operands = [.report p] ∧ i = f p := by
  unfold takeReport at h
  split at h
  · cases h; exact ⟨_, by assumption, rfl⟩
  · cases h

theorem takeReport_reject {f : KeyReport → Instr} : (∃ k, takeReport r f = .instr k) ∨ takeReport r f = .operandMismatch r.op := by
  unfold takeReport
  split
  · exact .inl ⟨_, rfl⟩
  · exact .inr rfl

/-- An opcode byte is known by its number. -/
theorem byte_eq_of_toNat {b c : Byte} (h : b.toNat = c.toNat) : b = c := BitVec.eq_of_toNat_eq h

/-- A byte read as display control is the control byte of its fields (R67). -/
theorem ctrlByte_of_ctrlFields {c : Config} {b : Byte} {f : Bit} {n : BitVec 3}
    (h : ctrlFields c b = some (f, n)) : ctrlByte c f n = b := by
  simp only [ctrlFields] at h
  split at h
  case isTrue h' => cases h; exact h'
  case isFalse => cases h

/-- Where the base leaves the flag's bit clear, a control byte is read as its own fields (R67, R7; log 22). -/
theorem ctrlFields_ctrlByte {c : Config} (hv : c.valid = true) (hb : c.cmdDisplayBase &&& c.displayOnFlag = 0#8)
    (on : Bit) (n : BitVec 3) : ctrlFields c (ctrlByte c on n) = some (on, n) := by
  simp only [Config.valid, Bool.and_eq_true, beq_iff_eq] at hv
  obtain ⟨⟨⟨⟨_, hone⟩, hbase⟩, hflag⟩, _⟩ := hv
  have bit : ∀ {x y : Byte}, x &&& y = 0#8 → ∀ k, (x.getLsbD k && y.getLsbD k) = false := by
    intro x y h k
    simpa using congrArg (fun z => z.getLsbD k) h
  have low : ∀ k, k < 3 → (7#8).getLsbD k = true := by decide
  have hbl : ∀ k, k < 3 → c.cmdDisplayBase.getLsbD k = false := fun k hk => by simpa [low k hk] using bit hbase k
  have hfl : ∀ k, k < 3 → c.displayOnFlag.getLsbD k = false := fun k hk => by simpa [low k hk] using bit hflag k
  have hn : (ctrlByte c on n).setWidth 3 = n := by
    apply BitVec.eq_of_getLsbD_eq
    intro k hk
    have h8 : k < 8 := by omega
    cases on <;>
      simp only [ctrlByte, BitVec.getLsbD_setWidth, BitVec.getLsbD_or, hk, h8, hbl k hk, hfl k hk, decide_true,
        Bool.true_and, Bool.false_or, if_true, Bool.false_eq_true, if_false, BitVec.getLsbD_zero]
  have hand : ctrlByte c on n &&& c.displayOnFlag = if on then c.displayOnFlag else 0#8 := by
    apply BitVec.eq_of_getLsbD_eq
    intro k hk
    have h1 := bit hb k
    by_cases h3 : k < 3
    · cases on <;> simp [hfl k h3]
    · have h2 : n.getLsbD k = false := BitVec.getLsbD_of_ge _ _ (by omega)
      cases on <;> cases hx : c.displayOnFlag.getLsbD k <;> simp_all [ctrlByte]
  have hne : c.displayOnFlag ≠ 0#8 := by
    intro h
    rw [h] at hone
    exact absurd hone (by decide)
  have hon : ((if on then c.displayOnFlag else 0#8) != 0#8) = on := by cases on <;> simp [hne]
  simp only [ctrlFields, hn, hand, hon, if_true]

/-- A byte read as an address byte is the address byte of its field, a plane's address (R66). -/
theorem addrByte_of_addrField {c : Config} {b a : Byte} (h : addrField c b = some a) :
    addrByte c a = b ∧ ∃ j, j < c.digits ∧ a = planeAddr j := by
  refine ⟨by simpa using List.find?_some h, ?_⟩
  have := List.mem_of_find?_eq_some h
  simp only [List.mem_map, List.mem_range] at this
  obtain ⟨j, hj, rfl⟩ := this
  exact ⟨j, hj, rfl⟩

end Sys2Proof
end

