-- ==== Sys2Proof/Laws/State.lean ====
section
/-! SUPPORT. What each update of State does to each field, so that no proof unfolds a record update. -/

namespace Sys2Proof.Machine

variable (s : State)

/-! ## `driveStb` -/

@[simp] theorem driveStb_cfg (l : Bit) : (driveStb l s).cfg = s.cfg := rfl
@[simp] theorem driveStb_stb (l : Bit) : (driveStb l s).stb = l := rfl
@[simp] theorem driveStb_clk (l : Bit) : (driveStb l s).clk = s.clk := rfl
@[simp] theorem driveStb_dioDir (l : Bit) : (driveStb l s).dioDir = s.dioDir := rfl
@[simp] theorem driveStb_dioOut (l : Bit) : (driveStb l s).dioOut = s.dioOut := rfl
@[simp] theorem driveStb_active (l : Bit) : (driveStb l s).active = s.active := rfl
@[simp] theorem driveStb_intensity (l : Bit) : (driveStb l s).intensity = s.intensity := rfl
@[simp] theorem driveStb_buf (l : Bit) : (driveStb l s).buf = s.buf := rfl
@[simp] theorem driveStb_result (l : Bit) : (driveStb l s).result = s.result := rfl
@[simp] theorem driveStb_fault (l : Bit) : (driveStb l s).fault = s.fault := rfl
@[simp] theorem driveStb_trace (l : Bit) : (driveStb l s).trace = s.trace ++ [.stb l] := rfl
@[simp] theorem driveStb_reqIndex (l : Bit) : (driveStb l s).reqIndex = s.reqIndex := rfl
@[simp] theorem driveStb_inputs (l : Bit) : (driveStb l s).inputs = s.inputs := rfl
@[simp] theorem driveStb_samples (l : Bit) : (driveStb l s).samples = s.samples := rfl
@[simp] theorem driveStb_drawn (l : Bit) : (driveStb l s).drawn = s.drawn := rfl

/-! ## `driveClk` -/

@[simp] theorem driveClk_cfg (l : Bit) : (driveClk l s).cfg = s.cfg := rfl
@[simp] theorem driveClk_stb (l : Bit) : (driveClk l s).stb = s.stb := rfl
@[simp] theorem driveClk_clk (l : Bit) : (driveClk l s).clk = l := rfl
@[simp] theorem driveClk_dioDir (l : Bit) : (driveClk l s).dioDir = s.dioDir := rfl
@[simp] theorem driveClk_dioOut (l : Bit) : (driveClk l s).dioOut = s.dioOut := rfl
@[simp] theorem driveClk_active (l : Bit) : (driveClk l s).active = s.active := rfl
@[simp] theorem driveClk_intensity (l : Bit) : (driveClk l s).intensity = s.intensity := rfl
@[simp] theorem driveClk_buf (l : Bit) : (driveClk l s).buf = s.buf := rfl
@[simp] theorem driveClk_result (l : Bit) : (driveClk l s).result = s.result := rfl
@[simp] theorem driveClk_fault (l : Bit) : (driveClk l s).fault = s.fault := rfl
@[simp] theorem driveClk_trace (l : Bit) : (driveClk l s).trace = s.trace ++ [.clk l] := rfl
@[simp] theorem driveClk_reqIndex (l : Bit) : (driveClk l s).reqIndex = s.reqIndex := rfl
@[simp] theorem driveClk_inputs (l : Bit) : (driveClk l s).inputs = s.inputs := rfl
@[simp] theorem driveClk_samples (l : Bit) : (driveClk l s).samples = s.samples := rfl
@[simp] theorem driveClk_drawn (l : Bit) : (driveClk l s).drawn = s.drawn := rfl

/-! ## `driveDio` -/

@[simp] theorem driveDio_cfg (l : Bit) : (driveDio l s).cfg = s.cfg := rfl
@[simp] theorem driveDio_stb (l : Bit) : (driveDio l s).stb = s.stb := rfl
@[simp] theorem driveDio_clk (l : Bit) : (driveDio l s).clk = s.clk := rfl
@[simp] theorem driveDio_dioDir (l : Bit) : (driveDio l s).dioDir = s.dioDir := rfl
@[simp] theorem driveDio_dioOut (l : Bit) : (driveDio l s).dioOut = l := rfl
@[simp] theorem driveDio_active (l : Bit) : (driveDio l s).active = s.active := rfl
@[simp] theorem driveDio_intensity (l : Bit) : (driveDio l s).intensity = s.intensity := rfl
@[simp] theorem driveDio_buf (l : Bit) : (driveDio l s).buf = s.buf := rfl
@[simp] theorem driveDio_result (l : Bit) : (driveDio l s).result = s.result := rfl
@[simp] theorem driveDio_fault (l : Bit) : (driveDio l s).fault = s.fault := rfl
@[simp] theorem driveDio_trace (l : Bit) : (driveDio l s).trace = s.trace ++ [.dioOut l] := rfl
@[simp] theorem driveDio_reqIndex (l : Bit) : (driveDio l s).reqIndex = s.reqIndex := rfl
@[simp] theorem driveDio_inputs (l : Bit) : (driveDio l s).inputs = s.inputs := rfl
@[simp] theorem driveDio_samples (l : Bit) : (driveDio l s).samples = s.samples := rfl
@[simp] theorem driveDio_drawn (l : Bit) : (driveDio l s).drawn = s.drawn := rfl

/-! ## `setDir` -/

@[simp] theorem setDir_cfg (d : Dir) : (setDir d s).cfg = s.cfg := rfl
@[simp] theorem setDir_stb (d : Dir) : (setDir d s).stb = s.stb := rfl
@[simp] theorem setDir_clk (d : Dir) : (setDir d s).clk = s.clk := rfl
@[simp] theorem setDir_dioDir (d : Dir) : (setDir d s).dioDir = d := rfl
@[simp] theorem setDir_dioOut (d : Dir) : (setDir d s).dioOut = s.dioOut := rfl
@[simp] theorem setDir_active (d : Dir) : (setDir d s).active = s.active := rfl
@[simp] theorem setDir_intensity (d : Dir) : (setDir d s).intensity = s.intensity := rfl
@[simp] theorem setDir_buf (d : Dir) : (setDir d s).buf = s.buf := rfl
@[simp] theorem setDir_result (d : Dir) : (setDir d s).result = s.result := rfl
@[simp] theorem setDir_fault (d : Dir) : (setDir d s).fault = s.fault := rfl
@[simp] theorem setDir_trace (d : Dir) : (setDir d s).trace = s.trace ++ [.dioDir d] := rfl
@[simp] theorem setDir_reqIndex (d : Dir) : (setDir d s).reqIndex = s.reqIndex := rfl
@[simp] theorem setDir_inputs (d : Dir) : (setDir d s).inputs = s.inputs := rfl
@[simp] theorem setDir_samples (d : Dir) : (setDir d s).samples = s.samples := rfl
@[simp] theorem setDir_drawn (d : Dir) : (setDir d s).drawn = s.drawn := rfl

/-! ## `wait` -/

@[simp] theorem wait_cfg (k : Delay) : (wait k s).cfg = s.cfg := rfl
@[simp] theorem wait_stb (k : Delay) : (wait k s).stb = s.stb := rfl
@[simp] theorem wait_clk (k : Delay) : (wait k s).clk = s.clk := rfl
@[simp] theorem wait_dioDir (k : Delay) : (wait k s).dioDir = s.dioDir := rfl
@[simp] theorem wait_dioOut (k : Delay) : (wait k s).dioOut = s.dioOut := rfl
@[simp] theorem wait_active (k : Delay) : (wait k s).active = s.active := rfl
@[simp] theorem wait_intensity (k : Delay) : (wait k s).intensity = s.intensity := rfl
@[simp] theorem wait_buf (k : Delay) : (wait k s).buf = s.buf := rfl
@[simp] theorem wait_result (k : Delay) : (wait k s).result = s.result := rfl
@[simp] theorem wait_fault (k : Delay) : (wait k s).fault = s.fault := rfl
@[simp] theorem wait_trace (k : Delay) : (wait k s).trace = s.trace ++ [.wait k] := rfl
@[simp] theorem wait_reqIndex (k : Delay) : (wait k s).reqIndex = s.reqIndex := rfl
@[simp] theorem wait_inputs (k : Delay) : (wait k s).inputs = s.inputs := rfl
@[simp] theorem wait_samples (k : Delay) : (wait k s).samples = s.samples := rfl
@[simp] theorem wait_drawn (k : Delay) : (wait k s).drawn = s.drawn := rfl

/-! ## `complete` -/

@[simp] theorem complete_cfg (r : Result) : (complete r s).cfg = s.cfg := rfl
@[simp] theorem complete_stb (r : Result) : (complete r s).stb = s.stb := rfl
@[simp] theorem complete_clk (r : Result) : (complete r s).clk = s.clk := rfl
@[simp] theorem complete_dioDir (r : Result) : (complete r s).dioDir = s.dioDir := rfl
@[simp] theorem complete_dioOut (r : Result) : (complete r s).dioOut = s.dioOut := rfl
@[simp] theorem complete_active (r : Result) : (complete r s).active = s.active := rfl
@[simp] theorem complete_intensity (r : Result) : (complete r s).intensity = s.intensity := rfl
@[simp] theorem complete_buf (r : Result) : (complete r s).buf = s.buf := rfl
@[simp] theorem complete_result (r : Result) : (complete r s).result = r := rfl
@[simp] theorem complete_fault (r : Result) : (complete r s).fault = s.fault := rfl
@[simp] theorem complete_trace (r : Result) : (complete r s).trace = s.trace := rfl
@[simp] theorem complete_reqIndex (r : Result) : (complete r s).reqIndex = s.reqIndex + 1 := rfl
@[simp] theorem complete_inputs (r : Result) : (complete r s).inputs = s.inputs := rfl
@[simp] theorem complete_samples (r : Result) : (complete r s).samples = s.samples := rfl
@[simp] theorem complete_drawn (r : Result) : (complete r s).drawn = s.drawn := rfl

/-! ## `consume` -/

@[simp] theorem consume_cfg : (consume s).cfg = s.cfg := rfl
@[simp] theorem consume_stb : (consume s).stb = s.stb := rfl
@[simp] theorem consume_clk : (consume s).clk = s.clk := rfl
@[simp] theorem consume_dioDir : (consume s).dioDir = s.dioDir := rfl
@[simp] theorem consume_dioOut : (consume s).dioOut = s.dioOut := rfl
@[simp] theorem consume_active : (consume s).active = s.active := rfl
@[simp] theorem consume_intensity : (consume s).intensity = s.intensity := rfl
@[simp] theorem consume_buf : (consume s).buf = s.buf := rfl
@[simp] theorem consume_result : (consume s).result = s.result := rfl
@[simp] theorem consume_fault : (consume s).fault = s.fault := rfl
@[simp] theorem consume_trace : (consume s).trace = s.trace := rfl
@[simp] theorem consume_reqIndex : (consume s).reqIndex = s.reqIndex := rfl
@[simp] theorem consume_inputs : (consume s).inputs = s.inputs.tail := rfl
@[simp] theorem consume_samples : (consume s).samples = s.samples := rfl
@[simp] theorem consume_drawn : (consume s).drawn = s.drawn := rfl

/-! ## `renderText` -/

@[simp] theorem renderText_cfg (t : List Byte) (m : Byte) (f : List Byte) : (renderText t m f s).cfg = s.cfg := rfl
@[simp] theorem renderText_stb (t : List Byte) (m : Byte) (f : List Byte) : (renderText t m f s).stb = s.stb := rfl
@[simp] theorem renderText_clk (t : List Byte) (m : Byte) (f : List Byte) : (renderText t m f s).clk = s.clk := rfl
@[simp] theorem renderText_dioDir (t : List Byte) (m : Byte) (f : List Byte) : (renderText t m f s).dioDir = s.dioDir := rfl
@[simp] theorem renderText_dioOut (t : List Byte) (m : Byte) (f : List Byte) : (renderText t m f s).dioOut = s.dioOut := rfl
@[simp] theorem renderText_active (t : List Byte) (m : Byte) (f : List Byte) : (renderText t m f s).active = s.active := rfl
@[simp] theorem renderText_intensity (t : List Byte) (m : Byte) (f : List Byte) : (renderText t m f s).intensity = s.intensity := rfl
@[simp] theorem renderText_buf (t : List Byte) (m : Byte) (f : List Byte) : (renderText t m f s).buf = stringToBuffer s.cfg.digits t m f := rfl
@[simp] theorem renderText_result (t : List Byte) (m : Byte) (f : List Byte) : (renderText t m f s).result = s.result := rfl
@[simp] theorem renderText_fault (t : List Byte) (m : Byte) (f : List Byte) : (renderText t m f s).fault = s.fault := rfl
@[simp] theorem renderText_trace (t : List Byte) (m : Byte) (f : List Byte) : (renderText t m f s).trace = s.trace := rfl
@[simp] theorem renderText_reqIndex (t : List Byte) (m : Byte) (f : List Byte) : (renderText t m f s).reqIndex = s.reqIndex := rfl
@[simp] theorem renderText_inputs (t : List Byte) (m : Byte) (f : List Byte) : (renderText t m f s).inputs = s.inputs := rfl
@[simp] theorem renderText_samples (t : List Byte) (m : Byte) (f : List Byte) : (renderText t m f s).samples = s.samples := rfl
@[simp] theorem renderText_drawn (t : List Byte) (m : Byte) (f : List Byte) : (renderText t m f s).drawn = s.drawn := rfl

/-! ## `sample` -/

@[simp] theorem sample_fst : (sample s).1 = draw s 0 := rfl
@[simp] theorem sample_cfg : (sample s).2.cfg = s.cfg := rfl
@[simp] theorem sample_stb : (sample s).2.stb = s.stb := rfl
@[simp] theorem sample_clk : (sample s).2.clk = s.clk := rfl
@[simp] theorem sample_dioDir : (sample s).2.dioDir = s.dioDir := rfl
@[simp] theorem sample_dioOut : (sample s).2.dioOut = s.dioOut := rfl
@[simp] theorem sample_active : (sample s).2.active = s.active := rfl
@[simp] theorem sample_intensity : (sample s).2.intensity = s.intensity := rfl
@[simp] theorem sample_buf : (sample s).2.buf = s.buf := rfl
@[simp] theorem sample_result : (sample s).2.result = s.result := rfl
@[simp] theorem sample_fault : (sample s).2.fault = s.fault := rfl
@[simp] theorem sample_trace : (sample s).2.trace = s.trace ++ [.sample (draw s 0)] := rfl
@[simp] theorem sample_reqIndex : (sample s).2.reqIndex = s.reqIndex := rfl
@[simp] theorem sample_inputs : (sample s).2.inputs = s.inputs := rfl
@[simp] theorem sample_samples : (sample s).2.samples = s.samples.tail := rfl
@[simp] theorem sample_drawn : (sample s).2.drawn = s.drawn + 1 := rfl

/-! ## The values of a reset (R37) -/

variable (c : Config)

@[simp] theorem resetWith_cfg : (State.resetWith c).cfg = c := rfl
@[simp] theorem resetWith_stb : (State.resetWith c).stb = true := rfl
@[simp] theorem resetWith_clk : (State.resetWith c).clk = true := rfl
@[simp] theorem resetWith_dioDir : (State.resetWith c).dioDir = .output := rfl
@[simp] theorem resetWith_dioOut : (State.resetWith c).dioOut = false := rfl
@[simp] theorem resetWith_active : (State.resetWith c).active = c.cfgActive := rfl
@[simp] theorem resetWith_intensity : (State.resetWith c).intensity = c.cfgIntensity := rfl
@[simp] theorem resetWith_buf : (State.resetWith c).buf = List.replicate c.digits 0#8 := rfl
@[simp] theorem resetWith_result : (State.resetWith c).result = .none := rfl
@[simp] theorem resetWith_fault : (State.resetWith c).fault = none := rfl
@[simp] theorem resetWith_trace : (State.resetWith c).trace = [] := rfl
@[simp] theorem resetWith_reqIndex : (State.resetWith c).reqIndex = 0 := rfl
@[simp] theorem resetWith_inputs : (State.resetWith c).inputs = [] := rfl
@[simp] theorem resetWith_samples : (State.resetWith c).samples = [] := rfl
@[simp] theorem resetWith_drawn : (State.resetWith c).drawn = 0 := rfl

end Sys2Proof.Machine
end

