-- ==== Sys2Proof/Laws/Transport.lean ====
section
/-! SUPPORT. Closed forms of the transport procedures: everything each one does to the state, in one equation. -/

namespace Sys2Proof.Machine

/-! ## Drawing samples -/

theorem getD_tail_succ {α : Type} (l : List α) (k : Nat) (d : α) : l.tail.getD k d = l.getD (k + 1) d := by
  cases l <;> simp

/-- After one sample the next draw is the one that stood second. -/
theorem draw_sample (s : State) (k : Nat) : draw (sample s).2 k = draw s (k + 1) := by
  simp [draw, Nat.add_assoc, Nat.add_comm 1 k]

/-- A draw depends on the environment's fields only. -/
theorem draw_congr {s t : State} (hs : t.samples = s.samples) (hd : t.drawn = s.drawn) (k : Nat) :
    draw t k = draw s k := by simp [draw, hs, hd]

/-- Draws after `n` samples have been taken. -/
theorem draw_drop {s t : State} {n : Nat} (hs : t.samples = s.samples.drop n) (hd : t.drawn = s.drawn + n)
    (k : Nat) : draw t k = draw s (n + k) := by
  simp [draw, hs, hd, List.getD_eq_getElem?_getD, List.getElem?_drop, Nat.add_assoc]

/-! ## Bytes from bits -/

theorem setBit_getLsbD (r : Byte) (k : Nat) (l : Bit) (j : Nat) (hk : k < 8) :
    (setBit r k l).getLsbD j = if j = k then l else r.getLsbD j := by
  unfold setBit
  by_cases hj : j < 8
  · have h1 : (1#8 <<< k).getLsbD j = decide (j = k) := by
      interval_cases k <;> interval_cases j <;> rfl
    cases l
    · rw [if_neg Bool.false_ne_true, BitVec.getLsbD_and, BitVec.getLsbD_not, h1]
      by_cases hjk : j = k <;> simp [hjk, hj]
    · rw [if_pos rfl, BitVec.getLsbD_or, h1]
      by_cases hjk : j = k <;> simp [hjk]
  · have hjk : j ≠ k := by omega
    simp [hjk, BitVec.getLsbD_of_ge _ _ (Nat.le_of_not_lt hj)]

/-- Bit `j` of a byte built from bits is bit `j` of the list (R45). -/
theorem byteOfBits_getLsbD (bits : List Bit) (j : Nat) (hj : j < 8) :
    (byteOfBits bits).getLsbD j = bits.getD j false := by
  simp only [byteOfBits, bitCells, List.foldl, setBit_getLsbD, Nat.lt_add_one, Nat.reduceLT]
  interval_cases j <;> simp

/-- The bits of a byte spell it. -/
theorem byteOfBits_bits (b : Byte) : byteOfBits (bitCells.map fun k => b.getLsbD k) = b := by
  apply BitVec.eq_of_getLsbD_eq
  intro j hj
  rw [byteOfBits_getLsbD _ _ hj]
  interval_cases j <;> rfl

/-- Bit `j` of the `k`-th received byte is its draw (R83, R85). -/
theorem drawnByte_getLsbD (s : State) (k j : Nat) (hj : j < 8) :
    (drawnByte s k).getLsbD j = draw s (8 * k + j) := by
  rw [drawnByte, byteOfBits_getLsbD _ _ hj]
  interval_cases j <;> rfl

/-! ## The procedures -/

theorem sendBit_eq (l : Bit) (s : State) :
    sendBit l s = { s with dioOut := l, clk := true, trace := s.trace ++ sendCellEvents l } := by
  simp [sendBit, wait, driveClk, driveDio, sendCellEvents]

/-- Everything a run of sent cells does, `m` the last of them. -/
theorem foldl_sendBit (f : Nat → Bit) (m : Nat) (ks : List Nat) (s : State) (h : ks.getLast? = some m) :
    ks.foldl (fun s k => sendBit (f k) s) s =
      { s with dioOut := f m, clk := true, trace := s.trace ++ ks.flatMap fun k => sendCellEvents (f k) } := by
  induction ks generalizing s with
  | nil => simp at h
  | cons j js ih =>
    rw [List.foldl_cons, List.flatMap_cons]
    cases js with
    | nil => simp_all [sendBit_eq]
    | cons i is =>
      rw [List.getLast?_cons_cons] at h
      rw [ih _ h, sendBit_eq]
      simp

/-- Everything `sendByte` does (R81). -/
theorem sendByte_eq (b : Byte) (s : State) :
    sendByte b s =
      { s with dioOut := b.getLsbD 7, clk := true, trace := s.trace ++ sendEvents b } := by
  rw [sendByte, foldl_sendBit (fun k => b.getLsbD k) 7 bitCells s rfl, sendEvents]

/-- The value latched on DIO after sending some bytes. -/
def lastBit (bs : List Byte) (l : Bit) : Bit := (bs.getLast?.map fun b => b.getLsbD 7).getD l

theorem lastBit_cons_cons (b c : Byte) (bs : List Byte) (l m : Bit) :
    lastBit (b :: c :: bs) l = lastBit (c :: bs) m := by
  rw [lastBit, List.getLast?_cons_cons, lastBit]
  simp [List.getLast?_cons]

theorem sendBytes_cons (b : Byte) (bs : List Byte) (s : State) :
    sendBytes (b :: bs) s = sendBytes bs (sendByte b s) := by rw [sendBytes, List.foldl_cons, sendBytes]

/-- Everything sending one byte or more in a row does. -/
theorem sendBytes_eq (b : Byte) (bs : List Byte) (s : State) :
    sendBytes (b :: bs) s =
      { s with dioOut := lastBit (b :: bs) s.dioOut, clk := true,
               trace := s.trace ++ (b :: bs).flatMap sendEvents } := by
  induction bs generalizing b s with
  | nil => simp [sendBytes, lastBit, sendByte_eq]
  | cons c cs ih =>
    rw [sendBytes_cons, ih, sendByte_eq,
      lastBit_cons_cons b c cs s.dioOut (b.getLsbD 7)]
    simp

/-- Everything a transaction that only sends does (R86). -/
theorem sendTransaction_eq (b : Byte) (bs : List Byte) (s : State) :
    sendTransaction (b :: bs) s =
      { s with stb := true, dioOut := lastBit (b :: bs) s.dioOut, clk := true,
               trace := s.trace ++ sendWindowEvents (b :: bs) } := by
  simp [sendTransaction, transaction, sendBytes_eq, wait, driveStb, sendWindowEvents, windowEvents]

/-- Everything `WriteFrame` does, under either framing (R108). -/
theorem writeFrame_eq (a v : Byte) (s : State) :
    writeFrame a v s =
      { s with stb := true, dioOut := v.getLsbD 7, clk := true, trace := s.trace ++ writeEvents s.cfg a v } := by
  unfold writeFrame writeEvents
  cases s.cfg.writeFraming <;> simp [sendTransaction_eq, lastBit]

/-- Everything writing one plane word or more does (R121, R122). -/
theorem writePlanesFrom_eq (j : Nat) (w : Byte) (ws : List Byte) (s : State) :
    writePlanesFrom j (w :: ws) s =
      { s with stb := true, dioOut := lastBit (w :: ws) s.dioOut, clk := true,
               trace := s.trace ++ planeEvents s.cfg j (w :: ws) } := by
  induction ws generalizing j w s with
  | nil => simp [writePlanesFrom, planeEvents, lastBit, writeFrame_eq]
  | cons v vs ih =>
    rw [writePlanesFrom, planeEvents, ih, writeFrame_eq, lastBit_cons_cons w v vs s.dioOut (w.getLsbD 7)]
    simp

theorem receiveBit_eq (k : Nat) (r : Byte) (s : State) :
    receiveBit k r s =
      (setBit r k (draw s 0),
       { s with clk := true, samples := s.samples.tail, drawn := s.drawn + 1,
                trace := s.trace ++ recvCellEvents (draw s 0) }) := by
  simp [receiveBit, sample, wait, driveClk, recvCellEvents, draw]

/-- Everything a run of received cells does: the first takes draw `n` of `t`, and so on. -/
theorem foldl_receiveBit (t : State) (ks : List Nat) (n : Nat) (r : Byte) (s : State)
    (h : ∀ k, draw s k = draw t (n + k)) :
    ks.foldl (fun p k => receiveBit k p.1 p.2) (r, s) =
      ((ks.zipIdx n).foldl (fun r p => setBit r p.1 (draw t p.2)) r,
       { s with clk := s.clk || !ks.isEmpty, samples := s.samples.drop ks.length, drawn := s.drawn + ks.length,
                trace := s.trace ++ (ks.zipIdx n).flatMap fun p => recvCellEvents (draw t p.2) }) := by
  induction ks generalizing n r s with
  | nil => simp
  | cons k ks ih =>
    rw [List.foldl_cons, receiveBit_eq, ih (n + 1)]
    · simp [List.zipIdx_cons, h 0, Nat.add_assoc, Nat.add_comm 1]
    · intro j
      rw [Nat.add_assoc, Nat.add_comm 1 j, ← h (j + 1), ← draw_sample]
      rfl

/-- Everything `receiveByte` does (R83): the byte is the next eight draws, each recorded. -/
theorem receiveByte_eq (s : State) :
    receiveByte s =
      (drawnByte s 0,
       { s with clk := true, dioDir := .output, samples := s.samples.drop 8, drawn := s.drawn + 8,
                trace := s.trace ++ recvEvents (drawnByte s 0) }) := by
  have hd : ∀ k, k < 8 → (drawnByte s 0).getLsbD k = draw s k := fun k hk => by
    simpa using drawnByte_getLsbD s 0 k hk
  have hf := foldl_receiveBit s bitCells 0 0#8 (setDir .input s) (fun k => by simp [draw])
  have he : (bitCells.zipIdx 0).flatMap (fun p => recvCellEvents (draw s p.2)) =
      bitCells.flatMap fun k => recvCellEvents ((drawnByte s 0).getLsbD k) := by
    have : bitCells.zipIdx 0 = bitCells.map fun k => (k, k) := rfl
    rw [this, List.flatMap_map]
    exact List.flatMap_congr fun k hk => by rw [hd k (by simp [bitCells] at hk; omega)]
  rw [receiveByte, hf, he]
  refine Prod.ext ?_ ?_
  · simp only [drawnByte, byteOfBits]
    simp [bitCells, List.zipIdx_cons]
  · simp [setDir, recvEvents, bitCells]

/-- Everything one report byte does (R107). -/
theorem receiveReportByte_eq (s : State) :
    receiveReportByte s =
      (drawnByte s 0,
       { s with clk := true, dioDir := .output, samples := s.samples.drop 8, drawn := s.drawn + 8,
                trace := s.trace ++ ([Event.wait .byte] ++ recvEvents (drawnByte s 0) ++ [Event.wait .byte]) }) := by
  have h : drawnByte (wait .byte s) 0 = drawnByte s 0 := rfl
  rw [receiveReportByte, receiveByte_eq, h]
  simp [wait]

/-- A drawn byte in terms of the environment's fields alone. -/
def drawnOf (samples : List Bit) (drawn k : Nat) : Byte :=
  byteOfBits (bitCells.map fun j => samples.getD (8 * k + j) (Config.freeSample (drawn + (8 * k + j))))

theorem drawnByte_eq (s : State) (k : Nat) : drawnByte s k = drawnOf s.samples s.drawn k := rfl

/-- Once a byte has been drawn, the next one comes first. -/
theorem drawnOf_drop (samples : List Bit) (drawn k : Nat) :
    drawnOf (samples.drop 8) (drawn + 8) k = drawnOf samples drawn (k + 1) := by
  simp only [drawnOf, List.getD_eq_getElem?_getD, List.getElem?_drop]
  congr 1
  apply List.map_congr_left
  intro j _
  rw [show 8 + (8 * k + j) = 8 * (k + 1) + j by omega, show drawn + 8 + (8 * k + j) = drawn + (8 * (k + 1) + j) by omega]

/-- Everything a key read does (R106, R154). -/
theorem readKeys_eq (s : State) :
    readKeys s =
      (drawnReport s,
       { s with stb := true, clk := true, dioDir := .output, dioOut := s.cfg.cmdReadKeys.getLsbD 7,
                samples := s.samples.drop 32, drawn := s.drawn + 32,
                trace := s.trace ++ readKeysEvents s.cfg (drawnReport s) }) := by
  rw [readKeys, transaction, readKeysBody, sendByte_eq]
  simp only [receiveReportByte_eq, drawnByte_eq, drawnOf_drop, drawnReport, wait_samples, wait_drawn,
    driveStb_samples, driveStb_drawn]
  refine Prod.ext rfl ?_
  simp [wait, driveStb, readKeysEvents, windowEvents]

end Sys2Proof.Machine
end

