-- ==== Sys2Proof/Laws/Exec.lean ====
section
/-! SUPPORT. What stands before every request, fault entry, and one inversion of `exec`: everything an instruction can answer. -/

namespace Sys2Proof.Machine

/-! ## The guards -/

@[simp] theorem halted_eq (s : State) : halted s = s.fault.isSome := rfl

@[simp] theorem windowOpen_eq (s : State) : windowOpen s = !s.stb := rfl

theorem whenServing_serving {s : State} (h : s.Serving) (k : Host.Outcome State Fault Refusal) :
    whenServing s k = k := by simp [whenServing, h.1, h.2]

theorem whenServing_halted {s : State} (hv : s.cfg.valid = true) (hf : s.fault ≠ none)
    (k : Host.Outcome State Fault Refusal) : whenServing s k = .next s := by
  simp [whenServing, hv, Option.isSome_iff_ne_none, hf]

theorem whenServing_invalid {s : State} (hv : s.cfg.valid = false) (k : Host.Outcome State Fault Refusal) :
    whenServing s k = .refused .invalidConfig := by simp [whenServing, hv]

/-- Everything `whenServing` can answer with a next state. -/
theorem whenServing_next {s t : State} {k : Host.Outcome State Fault Refusal} (h : whenServing s k = .next t) :
    s.cfg.valid = true ∧ ((s.fault ≠ none ∧ t = s) ∨ (s.fault = none ∧ k = .next t)) := by
  unfold whenServing at h
  split at h
  case isFalse => cases h
  case isTrue hv =>
    refine ⟨hv, ?_⟩
    split at h
    case isTrue hf => exact .inl ⟨by simpa [Option.isSome_iff_ne_none] using hf, by cases h; rfl⟩
    case isFalse hf => exact .inr ⟨by simpa using hf, h⟩

theorem requireIdle_idle {s : State} (h : s.stb = true) (op : Byte) (k : Host.Outcome State Fault Refusal) :
    requireIdle op s k = k := by simp [requireIdle, h]

theorem requireIdle_open {s : State} (h : s.stb = false) (op : Byte) (k : Host.Outcome State Fault Refusal) :
    requireIdle op s k = raise op .txnOpen .empty s := by simp [requireIdle, h]

theorem requireWindow_open {s : State} (h : s.stb = false) (op : Byte) (k : Host.Outcome State Fault Refusal) :
    requireWindow op s k = k := by simp [requireWindow, h]

theorem requireWindow_idle {s : State} (h : s.stb = true) (op : Byte) (k : Host.Outcome State Fault Refusal) :
    requireWindow op s k = raise op .noTxn .empty s := by simp [requireWindow, h]

/-! ## Fault entry -/

theorem releaseStrobe_idle {s : State} (h : s.stb = true) : releaseStrobe s = s := by
  simp [releaseStrobe, h]

theorem releaseStrobe_open {s : State} (h : s.stb = false) :
    releaseStrobe s = { s with stb := true, trace := s.trace ++ [.stb true, .wait .bit] } := by
  simp [releaseStrobe, h, wait, driveStb]

@[simp] theorem faultEntry_fault (op : Byte) (reason : Reason) (info : FaultInfo) (s : State) :
    (faultEntry op reason info s).fault = some ⟨kindOf reason, reason, op, s.reqIndex, info⟩ := rfl

theorem faultEntry_ne_none (op : Byte) (reason : Reason) (info : FaultInfo) (s : State) :
    (faultEntry op reason info s).fault ≠ none := by simp

/-! ## The planes -/

@[simp] theorem transpose_length (d : Nat) (v : List Byte) : (transpose d v).length = d := by simp [transpose]

/-- The last plane word is that of plane `D-1`. -/
theorem transpose_getLast? (d : Nat) (v : List Byte) (h : 1 ≤ d) :
    (transpose d v).getLast? = some (planeWord d v (d - 1)) := by
  obtain ⟨n, rfl⟩ : ∃ n, d = n + 1 := ⟨d - 1, by omega⟩
  simp [transpose, List.range_succ]

/-- Everything writing the planes of some values and completing does. -/
theorem complete_writePlanes (v : List Byte) (s : State) (h : 1 ≤ s.cfg.digits) :
    complete .none (writePlanesFrom 0 (transpose s.cfg.digits v) s) = planesShown s v := by
  have hl := transpose_getLast? s.cfg.digits v h
  cases hw : transpose s.cfg.digits v with
  | nil => have := congrArg List.length hw; simp at this; omega
  | cons w ws =>
    rw [hw] at hl
    rw [writePlanesFrom_eq]
    simp [complete, planesShown, lastBit, hl, hw]

/-- A valid configuration has a digit. -/
theorem digits_pos {c : Config} (h : c.valid = true) : 1 ≤ c.digits := by
  simp only [Config.valid, Bool.and_eq_true, decide_eq_true_eq] at h
  omega

/-- A valid configuration has at most eight digits. -/
theorem digits_le {c : Config} (h : c.valid = true) : c.digits ≤ 8 := by
  simp only [Config.valid, Bool.and_eq_true, decide_eq_true_eq] at h
  omega

/-- The plane addresses of a valid configuration lie in the register space (R7). -/
theorem planeAddr_lt {c : Config} (h : c.valid = true) : 2 * (c.digits - 1) < c.addrSpace := by
  simp only [Config.valid, Bool.and_eq_true, decide_eq_true_eq] at h
  omega

/-! ## The effect of each instruction where no check fails -/

/-- The state a text is shown in. -/
def textShown (s : State) (text : List Byte) (dots : Byte) (font : List Byte) : State :=
  { planesShown s (stringToBuffer s.cfg.digits text dots font) with
    buf := stringToBuffer s.cfg.digits text dots font }

/-- A byte is clocked out. -/
def byteSent (s : State) (b : Byte) : State :=
  { s with clk := true, dioOut := b.getLsbD 7, trace := s.trace ++ sendEvents b }

/-- A one-byte window is put on the bus. -/
def windowSent (s : State) (b : Byte) : State :=
  { s with stb := true, clk := true, dioOut := b.getLsbD 7, trace := s.trace ++ sendWindowEvents [b] }

/-- A key read is put on the bus. -/
def keysRead (s : State) : State :=
  { s with stb := true, clk := true, dioDir := .output, dioOut := s.cfg.cmdReadKeys.getLsbD 7,
           samples := s.samples.drop 32, drawn := s.drawn + 32,
           trace := s.trace ++ readKeysEvents s.cfg (drawnReport s) }

/-- `t` is what `i` does in `s` where every check passes. -/
def Performs (s t : State) : Instr → Prop
  | .bbTxnBegin => s.stb = true ∧ t = complete .none (wait .bit (driveStb false s))
  | .bbTxnEnd => s.stb = false ∧ t = complete .none (wait .bit (driveStb true s))
  | .bbSend b => s.stb = false ∧ t = complete .none (byteSent s b)
  | .bbRecv => s.stb = false ∧ t = complete (.byte (drawnByte s 0))
      { s with clk := true, dioDir := .output, samples := s.samples.drop 8, drawn := s.drawn + 8,
               trace := s.trace ++ recvEvents (drawnByte s 0) }
  | .ceWrcmd => s.stb = true ∧ t = complete .none (windowSent s s.cfg.cmdWrite)
  | .ceWrat a v => s.stb = true ∧ a.getLsbD 0 = false ∧ positionOk s.cfg a = true ∧
      t = complete .none
        { s with stb := true, dioOut := v.getLsbD 7, clk := true, trace := s.trace ++ writeEvents s.cfg a v }
  | .ceDispctl on x => s.stb = true ∧ ∃ n, intensityOperand s.cfg x = some n ∧
      t = complete .none { windowSent s (ctrlByte s.cfg on n) with active := on, intensity := n }
  | .ceReadkeys => s.stb = true ∧ t = complete (.report (drawnReport s)) (keysRead s)
  | .dtSetdisp values => s.stb = true ∧ values.length ≤ s.cfg.digits ∧ t = planesShown s values
  | .dtClear => s.stb = true ∧ t = planesShown s []
  | .dtStr2buf text dots font => fontChecks s.cfg.digits text font = none ∧
      t = complete (.buffer (stringToBuffer s.cfg.digits text dots font)) (renderText text dots font s)
  | .dtShowstr text dots font => s.stb = true ∧ fontChecks s.cfg.digits text font = none ∧
      t = textShown s text dots font
  | .dtShowhex n dots lz font => s.stb = true ∧
      fontChecks s.cfg.digits (fmtHex s.cfg.fmtPadWidth n lz) font = none ∧
      t = textShown s (fmtHex s.cfg.fmtPadWidth n lz) dots font
  | .dtShowudec n dots lz font => s.stb = true ∧
      fontChecks s.cfg.digits (fmtUDec s.cfg.fmtPadWidth n lz) font = none ∧
      t = textShown s (fmtUDec s.cfg.fmtPadWidth n lz) dots font
  | .dtShowsdec n dots lz font => s.stb = true ∧
      fontChecks s.cfg.digits (fmtSDec s.cfg.fmtPadWidth n lz) font = none ∧
      t = textShown s (fmtSDec s.cfg.fmtPadWidth n lz) dots font
  | .kdDecode rep => t = complete (.mask (decodeKeys s.cfg.keyRemap rep)) s
  | .kdGetkeys => s.stb = true ∧ t = complete (.mask (decodeKeys s.cfg.keyRemap (drawnReport s))) (keysRead s)
  | .wireCmdWrite => s.stb = false ∧ t = byteSent s s.cfg.cmdWrite
  | .wireAddr a => s.stb = false ∧ a.getLsbD 0 = false ∧ positionOk s.cfg a = true ∧
      t = byteSent s (addrByte s.cfg a)
  | .wireDispctl f n => s.stb = false ∧ t = byteSent s (ctrlByte s.cfg f n)
  | .wireReadKeys => s.stb = false ∧ t = byteSent s s.cfg.cmdReadKeys
  | .wireData d => s.stb = false ∧ t = byteSent s d

/-- `t` is fault entry from a check of the operation with opcode `op`. -/
def Raises (s t : State) (op : Byte) : Prop :=
  ∃ reason info, kindOf reason = .contractViolation ∧ t = faultEntry op reason info s

/-! ## Everything a next state can be, per shared operation -/

theorem requireIdle_next {s t : State} {op : Byte} {k : Host.Outcome State Fault Refusal}
    (h : requireIdle op s k = .next t) : Raises s t op ∨ (s.stb = true ∧ k = .next t) := by
  cases hs : s.stb with
  | true => rw [requireIdle_idle hs] at h; exact .inr ⟨rfl, h⟩
  | false => rw [requireIdle_open hs] at h; cases h; exact .inl ⟨_, _, rfl, rfl⟩

theorem requireWindow_next {s t : State} {op : Byte} {k : Host.Outcome State Fault Refusal}
    (h : requireWindow op s k = .next t) : Raises s t op ∨ (s.stb = false ∧ k = .next t) := by
  cases hs : s.stb with
  | true => rw [requireWindow_idle hs] at h; cases h; exact .inl ⟨_, _, rfl, rfl⟩
  | false => rw [requireWindow_open hs] at h; exact .inr ⟨rfl, h⟩

theorem charChecks_kind {n i : Nat} {cs : List Byte} {reason : Reason} {info : FaultInfo}
    (h : charChecks n i cs = some (reason, info)) : kindOf reason = .contractViolation := by
  induction cs generalizing i with
  | nil => cases h
  | cons c cs ih =>
    unfold charChecks at h
    split at h
    · cases h; rfl
    · split at h
      · cases h; rfl
      · exact ih h

theorem fontChecks_kind {d : Nat} {text font : List Byte} {reason : Reason} {info : FaultInfo}
    (h : fontChecks d text font = some (reason, info)) : kindOf reason = .contractViolation := by
  unfold fontChecks at h
  split at h
  · cases h; rfl
  · exact charChecks_kind h

/-- Everything showing a text can answer with a next state. -/
theorem showText_next {op : Byte} {text font : List Byte} {dots : Byte} {s t : State} (hd : 1 ≤ s.cfg.digits)
    (h : showText op text dots font s = .next t) :
    Raises s t op ∨
      (s.stb = true ∧ fontChecks s.cfg.digits text font = none ∧ t = textShown s text dots font) := by
  rcases requireIdle_next h with h | ⟨hs, h⟩
  · exact .inl h
  · cases hc : fontChecks s.cfg.digits text font with
    | some p =>
      obtain ⟨reason, info⟩ := p
      rw [hc] at h
      cases h
      exact .inl ⟨_, _, fontChecks_kind hc, rfl⟩
    | none =>
      rw [hc] at h
      refine .inr ⟨hs, rfl, ?_⟩
      have := complete_writePlanes (stringToBuffer s.cfg.digits text dots font) (renderText text dots font s) hd
      simp only [renderText_cfg] at this
      cases h
      rw [this]
      rfl

/-- Everything DT.SETDISP's body can answer with a next state. -/
theorem setDisplay_next {op : Byte} {values : List Byte} {s t : State} (hd : 1 ≤ s.cfg.digits)
    (h : setDisplay op values s = .next t) :
    Raises s t op ∨ (s.stb = true ∧ values.length ≤ s.cfg.digits ∧ t = planesShown s values) := by
  rcases requireIdle_next h with h | ⟨hs, h⟩
  · exact .inl h
  · split at h
    · cases h; exact .inl ⟨_, _, rfl, rfl⟩
    · cases h; exact .inr ⟨hs, by omega, complete_writePlanes values s hd⟩

/-- Everything clocking out a wire byte can answer with a next state. -/
theorem sendInWindow_next {b : Byte} {s t : State} (h : sendInWindow b s = .next t) :
    s.cfg.valid = true ∧
      ((s.fault ≠ none ∧ t = s) ∨ (s.fault = none ∧ s.stb = false ∧ t = byteSent s b)) := by
  obtain ⟨hv, h | ⟨hf, h⟩⟩ := whenServing_next h
  · exact ⟨hv, .inl h⟩
  · refine ⟨hv, .inr ⟨hf, ?_⟩⟩
    rw [windowOpen_eq] at h
    cases hs : s.stb with
    | true => simp [hs] at h
    | false =>
      simp only [hs, Bool.not_false, if_true] at h
      cases h
      refine ⟨rfl, ?_⟩
      rw [sendByte_eq]
      simp [byteSent, hs]

/-- Everything an instruction can answer with a next state: under a configuration that meets R7, a halted block stays as
it is, a failed check enters the fault, and otherwise the instruction performs. -/
theorem exec_next {i : Instr} {s t : State} (h : exec i s = .next t) :
    s.cfg.valid = true ∧
      ((s.fault ≠ none ∧ t = s) ∨
       (s.fault = none ∧ ((∃ op, opcodeOf i = some op ∧ Raises s t op) ∨ Performs s t i))) := by
  have wire : ∀ {b : Byte}, sendInWindow b s = .next t → s.cfg.valid = true ∧
      ((s.fault ≠ none ∧ t = s) ∨ (s.fault = none ∧ s.stb = false ∧ t = byteSent s b)) := sendInWindow_next
  have shown : ∀ {op text font} {dots : Byte} (k : Host.Outcome State Fault Refusal),
      k = showText op text dots font s → whenServing s k = .next t → s.cfg.valid = true ∧
      ((s.fault ≠ none ∧ t = s) ∨ (s.fault = none ∧ (Raises s t op ∨
        (s.stb = true ∧ fontChecks s.cfg.digits text font = none ∧ t = textShown s text dots font)))) := by
    intro op text font dots k hk h
    obtain ⟨hv, h | ⟨hf, h⟩⟩ := whenServing_next h
    · exact ⟨hv, .inl h⟩
    · exact ⟨hv, .inr ⟨hf, showText_next (digits_pos hv) (hk ▸ h)⟩⟩
  cases i with
  | bbTxnBegin =>
    obtain ⟨hv, h | ⟨hf, h⟩⟩ := whenServing_next h
    · exact ⟨hv, .inl h⟩
    · refine ⟨hv, .inr ⟨hf, ?_⟩⟩
      rcases requireIdle_next h with h | ⟨hs, h⟩
      · exact .inl ⟨_, rfl, h⟩
      · cases h; exact .inr ⟨hs, rfl⟩
  | bbTxnEnd =>
    obtain ⟨hv, h | ⟨hf, h⟩⟩ := whenServing_next h
    · exact ⟨hv, .inl h⟩
    · refine ⟨hv, .inr ⟨hf, ?_⟩⟩
      rcases requireWindow_next h with h | ⟨hs, h⟩
      · exact .inl ⟨_, rfl, h⟩
      · cases h; exact .inr ⟨hs, rfl⟩
  | bbSend b =>
    obtain ⟨hv, h | ⟨hf, h⟩⟩ := whenServing_next h
    · exact ⟨hv, .inl h⟩
    · refine ⟨hv, .inr ⟨hf, ?_⟩⟩
      rcases requireWindow_next h with h | ⟨hs, h⟩
      · exact .inl ⟨_, rfl, h⟩
      · rw [sendByte_eq] at h
        cases h; exact .inr ⟨hs, rfl⟩
  | bbRecv =>
    obtain ⟨hv, h | ⟨hf, h⟩⟩ := whenServing_next h
    · exact ⟨hv, .inl h⟩
    · refine ⟨hv, .inr ⟨hf, ?_⟩⟩
      rcases requireWindow_next h with h | ⟨hs, h⟩
      · exact .inl ⟨_, rfl, h⟩
      · rw [receiveByte_eq] at h
        cases h; exact .inr ⟨hs, rfl⟩
  | ceWrcmd =>
    obtain ⟨hv, h | ⟨hf, h⟩⟩ := whenServing_next h
    · exact ⟨hv, .inl h⟩
    · refine ⟨hv, .inr ⟨hf, ?_⟩⟩
      rcases requireIdle_next h with h | ⟨hs, h⟩
      · exact .inl ⟨_, rfl, h⟩
      · rw [sendTransaction_eq] at h
        cases h; exact .inr ⟨hs, rfl⟩
  | ceWrat a v =>
    obtain ⟨hv, h | ⟨hf, h⟩⟩ := whenServing_next h
    · exact ⟨hv, .inl h⟩
    · refine ⟨hv, .inr ⟨hf, ?_⟩⟩
      rcases requireIdle_next h with h | ⟨hs, h⟩
      · exact .inl ⟨_, rfl, h⟩
      · split at h
        · cases h; exact .inl ⟨_, rfl, _, _, rfl, rfl⟩
        · split at h
          · rw [writeFrame_eq] at h
            cases h
            exact .inr ⟨hs, by simp_all, by assumption, rfl⟩
          · cases h; exact .inl ⟨_, rfl, _, _, rfl, rfl⟩
  | ceDispctl on x =>
    obtain ⟨hv, h | ⟨hf, h⟩⟩ := whenServing_next h
    · exact ⟨hv, .inl h⟩
    · refine ⟨hv, .inr ⟨hf, ?_⟩⟩
      rcases requireIdle_next h with h | ⟨hs, h⟩
      · exact .inl ⟨_, rfl, h⟩
      · split at h
        · cases h; exact .inl ⟨_, rfl, _, _, rfl, rfl⟩
        · rename_i n hn
          rw [sendTransaction_eq] at h
          cases h; exact .inr ⟨hs, n, hn, rfl⟩
  | ceReadkeys =>
    obtain ⟨hv, h | ⟨hf, h⟩⟩ := whenServing_next h
    · exact ⟨hv, .inl h⟩
    · refine ⟨hv, .inr ⟨hf, ?_⟩⟩
      rcases requireIdle_next h with h | ⟨hs, h⟩
      · exact .inl ⟨_, rfl, h⟩
      · rw [readKeys_eq] at h
        cases h; exact .inr ⟨hs, rfl⟩
  | dtSetdisp values =>
    obtain ⟨hv, h | ⟨hf, h⟩⟩ := whenServing_next h
    · exact ⟨hv, .inl h⟩
    · refine ⟨hv, .inr ⟨hf, ?_⟩⟩
      rcases setDisplay_next (digits_pos hv) h with h | h
      · exact .inl ⟨_, rfl, h⟩
      · exact .inr h
  | dtClear =>
    obtain ⟨hv, h | ⟨hf, h⟩⟩ := whenServing_next h
    · exact ⟨hv, .inl h⟩
    · refine ⟨hv, .inr ⟨hf, ?_⟩⟩
      rcases setDisplay_next (digits_pos hv) h with h | ⟨hs, _, h⟩
      · exact .inl ⟨_, rfl, h⟩
      · exact .inr ⟨hs, h⟩
  | dtStr2buf text dots font =>
    obtain ⟨hv, h | ⟨hf, h⟩⟩ := whenServing_next h
    · exact ⟨hv, .inl h⟩
    · refine ⟨hv, .inr ⟨hf, ?_⟩⟩
      split at h
      · rename_i hc
        cases h; exact .inl ⟨_, rfl, _, _, fontChecks_kind hc, rfl⟩
      · rename_i hc
        cases h; exact .inr ⟨hc, rfl⟩
  | dtShowstr text dots font =>
    obtain ⟨hv, h | ⟨hf, h | h⟩⟩ := shown _ rfl h
    exacts [⟨hv, .inl h⟩, ⟨hv, .inr ⟨hf, .inl ⟨_, rfl, h⟩⟩⟩, ⟨hv, .inr ⟨hf, .inr h⟩⟩]
  | dtShowhex n dots lz font =>
    obtain ⟨hv, h | ⟨hf, h | h⟩⟩ := shown _ rfl h
    exacts [⟨hv, .inl h⟩, ⟨hv, .inr ⟨hf, .inl ⟨_, rfl, h⟩⟩⟩, ⟨hv, .inr ⟨hf, .inr h⟩⟩]
  | dtShowudec n dots lz font =>
    obtain ⟨hv, h | ⟨hf, h | h⟩⟩ := shown _ rfl h
    exacts [⟨hv, .inl h⟩, ⟨hv, .inr ⟨hf, .inl ⟨_, rfl, h⟩⟩⟩, ⟨hv, .inr ⟨hf, .inr h⟩⟩]
  | dtShowsdec n dots lz font =>
    obtain ⟨hv, h | ⟨hf, h | h⟩⟩ := shown _ rfl h
    exacts [⟨hv, .inl h⟩, ⟨hv, .inr ⟨hf, .inl ⟨_, rfl, h⟩⟩⟩, ⟨hv, .inr ⟨hf, .inr h⟩⟩]
  | kdDecode rep =>
    obtain ⟨hv, h | ⟨hf, h⟩⟩ := whenServing_next h
    · exact ⟨hv, .inl h⟩
    · cases h; exact ⟨hv, .inr ⟨hf, .inr rfl⟩⟩
  | kdGetkeys =>
    obtain ⟨hv, h | ⟨hf, h⟩⟩ := whenServing_next h
    · exact ⟨hv, .inl h⟩
    · refine ⟨hv, .inr ⟨hf, ?_⟩⟩
      rcases requireIdle_next h with h | ⟨hs, h⟩
      · exact .inl ⟨_, rfl, h⟩
      · rw [readKeys_eq] at h
        cases h; exact .inr ⟨hs, rfl⟩
  | wireCmdWrite =>
    obtain ⟨hv, h | ⟨hf, h⟩⟩ := wire h
    exacts [⟨hv, .inl h⟩, ⟨hv, .inr ⟨hf, .inr h⟩⟩]
  | wireAddr a =>
    simp only [exec, execWireAddr] at h
    split at h
    · cases h
    · rename_i hc
      obtain ⟨hv, h | ⟨hf, hs, h⟩⟩ := wire h
      · exact ⟨hv, .inl h⟩
      · simp [hv, hf] at hc
        exact ⟨hv, .inr ⟨hf, .inr ⟨hs, by simpa using hc.1, hc.2, h⟩⟩⟩
  | wireDispctl f n =>
    obtain ⟨hv, h | ⟨hf, h⟩⟩ := wire h
    exacts [⟨hv, .inl h⟩, ⟨hv, .inr ⟨hf, .inr h⟩⟩]
  | wireReadKeys =>
    obtain ⟨hv, h | ⟨hf, h⟩⟩ := wire h
    exacts [⟨hv, .inl h⟩, ⟨hv, .inr ⟨hf, .inr h⟩⟩]
  | wireData d =>
    obtain ⟨hv, h | ⟨hf, h⟩⟩ := wire h
    exacts [⟨hv, .inl h⟩, ⟨hv, .inr ⟨hf, .inr h⟩⟩]

/-! ## The step -/

/-- Everything a step can answer with a next state. -/
theorem step_next {s t : State} (h : step s = .next t) :
    (s.inputs = [] ∧ s.cfg.valid = true ∧ t = s) ∨
    (∃ c rest, s.inputs = .reset c :: rest ∧ c.valid = true ∧
      t = { State.resetWith c with inputs := rest, samples := s.samples, drawn := s.drawn }) ∨
    (∃ k rest i, s.inputs = .code k :: rest ∧ decode s.cfg k = .instr i ∧
      exec i { s with inputs := rest } = .next t) ∨
    (∃ k rest op, s.inputs = .code k :: rest ∧ decode s.cfg k = .illegalOpcode op ∧ s.cfg.valid = true ∧
      ((s.fault ≠ none ∧ t = { s with inputs := rest }) ∨
       (s.fault = none ∧ t = faultEntry op .illegalOperation (.op op) { s with inputs := rest }))) ∨
    (∃ k rest op, s.inputs = .code k :: rest ∧ decode s.cfg k = .operandMismatch op ∧ s.cfg.valid = true ∧
      s.fault ≠ none ∧ t = { s with inputs := rest }) := by
  unfold step fetch at h
  cases hi : s.inputs with
  | nil =>
    simp only [hi, waitForRequest] at h
    split at h
    · cases h; exact .inl ⟨rfl, by assumption, rfl⟩
    · cases h
  | cons x rest =>
    have hc : consume s = { s with inputs := rest } := by simp [consume, hi]
    cases x with
    | reset c =>
      simp only [hi, applyReset, hc] at h
      split at h
      · cases h; exact .inr (.inl ⟨c, rest, rfl, by assumption, rfl⟩)
      · cases h
    | code k =>
      simp only [hi, hc] at h
      cases hd : decode s.cfg k with
      | instr i => simp only [hd, workOf] at h; exact .inr (.inr (.inl ⟨k, rest, i, rfl, hd, h⟩))
      | illegalOpcode op =>
        simp only [hd, workOf, illegalOperation] at h
        obtain ⟨hv, h | ⟨hf, h⟩⟩ := whenServing_next h
        · exact .inr (.inr (.inr (.inl ⟨k, rest, op, rfl, hd, hv, .inl h⟩)))
        · cases h; exact .inr (.inr (.inr (.inl ⟨k, rest, op, rfl, hd, hv, .inr ⟨hf, rfl⟩⟩)))
      | operandMismatch op =>
        simp only [hd, workOf, malformedRequest] at h
        obtain ⟨hv, ⟨hf, h⟩ | ⟨_, h⟩⟩ := whenServing_next h
        · exact .inr (.inr (.inr (.inr ⟨k, rest, op, rfl, hd, hv, hf, h⟩)))
        · cases h

end Sys2Proof.Machine
end

