-- ==== Sys2Proof/Laws/Frames.lean ====
section
/-! SUPPORT. What the scan of a trace makes of the events of each procedure (41_bitbus.md R90, 30_encoding.md R71). -/

namespace Sys2Proof.Machine

/-- Scanning a longer trace goes on where the scan of the shorter one stopped. -/
theorem scanFrom_append (sc : Scan) (xs ys : List Event) :
    scanFrom sc (xs ++ ys) = (scanFrom sc xs).bind fun sc => scanFrom sc ys := by
  induction xs generalizing sc with
  | nil => rfl
  | cons x xs ih =>
    simp only [List.cons_append, scanFrom]
    cases scanEvent sc x with
    | none => rfl
    | some sc' => exact ih sc'

theorem scanTrace_append (xs ys : List Event) :
    scanTrace (xs ++ ys) = (scanTrace xs).bind fun sc => scanFrom sc ys := scanFrom_append _ _ _

/-- Scanning a trace that parses so far. -/
theorem scanTrace_append_of_eq {xs : List Event} {sc : Scan} (h : scanTrace xs = some sc) (ys : List Event) :
    scanTrace (xs ++ ys) = scanFrom sc ys := by rw [scanTrace_append, h]; rfl

theorem scanFrom_of_append {sc sc' : Scan} {xs : List Event} (h : scanFrom sc xs = some sc') (ys : List Event) :
    scanFrom sc (xs ++ ys) = scanFrom sc' ys := by rw [scanFrom_append, h]; rfl

/-- A sent byte becomes one item of the window. -/
theorem scan_sendEvents (done : List Frame) (items : List Item) (b : Byte) :
    scanFrom ⟨done, .window items⟩ (sendEvents b) = some ⟨done, .window (items ++ [.tx b])⟩ := by
  have h : byteOfBits [b.getLsbD 0, b.getLsbD 1, b.getLsbD 2, b.getLsbD 3, b.getLsbD 4, b.getLsbD 5, b.getLsbD 6,
      b.getLsbD 7] = b := byteOfBits_bits b
  simp only [sendEvents, bitCells, List.flatMap_cons, List.flatMap_nil, sendCellEvents, List.cons_append,
    List.nil_append, scanFrom, scanEvent, scanSending, Option.bind, List.length_cons, List.length_nil,
    Nat.reduceAdd, Nat.reduceEqDiff, if_false, if_true, h]

/-- A received byte becomes one item of the window. -/
theorem scan_recvEvents (done : List Frame) (items : List Item) (r : Byte) :
    scanFrom ⟨done, .window items⟩ (recvEvents r) = some ⟨done, .window (items ++ [.rx r])⟩ := by
  have h : byteOfBits [r.getLsbD 0, r.getLsbD 1, r.getLsbD 2, r.getLsbD 3, r.getLsbD 4, r.getLsbD 5, r.getLsbD 6,
      r.getLsbD 7] = r := byteOfBits_bits r
  simp only [recvEvents, bitCells, List.flatMap_cons, List.flatMap_nil, recvCellEvents, List.cons_append,
    List.nil_append, List.append_nil, scanFrom, scanEvent, scanReceiving, Option.bind, List.length_cons,
    List.length_nil, Nat.reduceAdd, Nat.reduceLT, if_true, h]

/-- Bytes sent in a row become items in a row. -/
theorem scan_sendAll (done : List Frame) (items : List Item) (bs : List Byte) :
    scanFrom ⟨done, .window items⟩ (bs.flatMap sendEvents) = some ⟨done, .window (items ++ bs.map .tx)⟩ := by
  induction bs generalizing items with
  | nil => simp [scanFrom]
  | cons b bs ih =>
    rw [List.flatMap_cons, scanFrom_of_append (scan_sendEvents done items b), ih]
    simp

/-- A window opens, takes the items of its body, and closes. -/
theorem scan_windowEvents (done : List Frame) (items : List Item) (body : List Event)
    (h : scanFrom ⟨done, .window []⟩ body = some ⟨done, .window items⟩) :
    scanFrom ⟨done, .between⟩ (windowEvents body) = some ⟨done ++ [⟨items, true⟩], .between⟩ := by
  have h1 : scanFrom ⟨done, .between⟩ [.stb false, .wait .bit] = some ⟨done, .window []⟩ := rfl
  rw [windowEvents, List.append_assoc, scanFrom_of_append h1, scanFrom_of_append h]
  rfl

/-- A window of sent bytes is one frame. -/
theorem scan_sendWindowEvents (done : List Frame) (bs : List Byte) :
    scanFrom ⟨done, .between⟩ (sendWindowEvents bs) = some ⟨done ++ [txFrame bs], .between⟩ :=
  scan_windowEvents _ _ _ (by simpa using scan_sendAll done [] bs)

/-- A register write is its frames (R71). -/
theorem scan_writeEvents (done : List Frame) (c : Config) (a v : Byte) :
    scanFrom ⟨done, .between⟩ (writeEvents c a v) = some ⟨done ++ writeFrames c a v, .between⟩ := by
  unfold writeEvents writeFrames
  cases c.writeFraming with
  | oneWindow => exact scan_sendWindowEvents _ _
  | twoWindows =>
    rw [scanFrom_of_append (scan_sendWindowEvents _ _), scan_sendWindowEvents]
    simp

/-- Plane writes are their frames (R71). -/
theorem scan_planeEvents (done : List Frame) (c : Config) (j : Nat) (ws : List Byte) :
    scanFrom ⟨done, .between⟩ (planeEvents c j ws) = some ⟨done ++ planeFrames c j ws, .between⟩ := by
  induction ws generalizing done j with
  | nil => simp [planeEvents, planeFrames, scanFrom]
  | cons w ws ih =>
    rw [planeEvents, scanFrom_of_append (scan_writeEvents _ _ _ _), ih, planeFrames]
    simp

/-- Received report bytes, each between its two delays, become items in a row. -/
theorem scan_reportEvents (done : List Frame) (items : List Item) (rs : List Byte) :
    scanFrom ⟨done, .window items⟩
        (rs.flatMap fun r => [Event.wait .byte] ++ recvEvents r ++ [Event.wait .byte]) =
      some ⟨done, .window (items ++ rs.map .rx)⟩ := by
  have hw : ∀ items, scanFrom ⟨done, .window items⟩ [Event.wait .byte] = some ⟨done, .window items⟩ := fun _ => rfl
  induction rs generalizing items with
  | nil => simp [scanFrom]
  | cons r rs ih =>
    rw [List.flatMap_cons, List.append_assoc, List.append_assoc, scanFrom_of_append (hw _),
      scanFrom_of_append (scan_recvEvents _ _ _), scanFrom_of_append (hw _), ih]
    simp

/-- A key read is one frame (R71). -/
theorem scan_readKeysEvents (done : List Frame) (c : Config) (rep : KeyReport) :
    scanFrom ⟨done, .between⟩ (readKeysEvents c rep) = some ⟨done ++ [readFrame c rep], .between⟩ := by
  refine scan_windowEvents _ _ _ ?_
  rw [scanFrom_of_append (scan_sendEvents _ _ _), scan_reportEvents]
  rfl

/-- What `traceParses` says, case by case. -/
theorem traceParses_iff (s : State) :
    traceParses s = true ↔
      ∃ sc, scanTrace s.trace = some sc ∧
        ((s.stb = true ∧ sc.pos = .between) ∨ (s.stb = false ∧ ∃ items, sc.pos = .window items)) := by
  unfold traceParses
  cases h : scanTrace s.trace with
  | none => simp
  | some sc =>
    obtain ⟨done, pos⟩ := sc
    cases pos <;> simp

end Sys2Proof.Machine
end

