-- ==== Sys2Proof/Laws/PerInstr.lean ====
section
/-! SUPPORT. One law per instruction: the encoding of a request starts with its opcode byte, whose upper nibble names its family, and a wire byte is no request (30_encoding.md R60, R61). -/

namespace Sys2Proof.Laws.OpcodeFamily

/-- The upper nibble of a family's opcodes (R61). -/
def familyNibble : Instr → Byte
  | .bbTxnBegin | .bbTxnEnd | .bbSend _ | .bbRecv => 0x0#8
  | .ceWrcmd | .ceWrat _ _ | .ceDispctl _ _ | .ceReadkeys => 0x1#8
  | .dtSetdisp _ | .dtClear | .dtStr2buf _ _ _ | .dtShowstr _ _ _ => 0x2#8
  | .dtShowhex _ _ _ _ | .dtShowudec _ _ _ _ | .dtShowsdec _ _ _ _ => 0x2#8
  | .kdDecode _ | .kdGetkeys => 0x3#8
  | .wireCmdWrite | .wireAddr _ | .wireDispctl _ _ | .wireReadKeys | .wireData _ => 0xF#8

/-- Under every configuration a request encodes to a request with its opcode byte, in its family's nibble; a wire byte
encodes to a wire byte and has no opcode. -/
def Statement (i : Instr) : Prop :=
  ∀ c : Config,
    match encode c i with
    | .request r => i.isRequest = true ∧ opcodeOf i = some r.op ∧ r.op >>> 4 = familyNibble i
    | .wire _ => i.isRequest = false ∧ opcodeOf i = none

theorem bbTxnBegin : Statement .bbTxnBegin := fun _ => ⟨rfl, rfl, rfl⟩
theorem bbTxnEnd : Statement .bbTxnEnd := fun _ => ⟨rfl, rfl, rfl⟩
theorem bbSend (b : Byte) : Statement (.bbSend b) :=
  fun _ => ⟨rfl, rfl, (by decide : opSend >>> 4 = 0x0#8)⟩
theorem bbRecv : Statement .bbRecv := fun _ => ⟨rfl, rfl, rfl⟩
theorem ceWrcmd : Statement .ceWrcmd := fun _ => ⟨rfl, rfl, rfl⟩
theorem ceWrat (addr value : Byte) : Statement (.ceWrat addr value) :=
  fun _ => ⟨rfl, rfl, (by decide : opWrat >>> 4 = 0x1#8)⟩
theorem ceDispctl (on : Bit) (intensity : Byte) : Statement (.ceDispctl on intensity) :=
  fun _ => ⟨rfl, rfl, (by decide : opDispctl >>> 4 = 0x1#8)⟩
theorem ceReadkeys : Statement .ceReadkeys := fun _ => ⟨rfl, rfl, rfl⟩
theorem dtSetdisp (values : List Byte) : Statement (.dtSetdisp values) :=
  fun _ => ⟨rfl, rfl, (by decide : opSetdisp >>> 4 = 0x2#8)⟩
theorem dtClear : Statement .dtClear := fun _ => ⟨rfl, rfl, rfl⟩
theorem dtStr2buf (text : List Byte) (dots : Byte) (font : List Byte) : Statement (.dtStr2buf text dots font) :=
  fun _ => ⟨rfl, rfl, (by decide : opStr2buf >>> 4 = 0x2#8)⟩
theorem dtShowstr (text : List Byte) (dots : Byte) (font : List Byte) : Statement (.dtShowstr text dots font) :=
  fun _ => ⟨rfl, rfl, (by decide : opShowstr >>> 4 = 0x2#8)⟩
theorem dtShowhex (number : Word32) (dots : Byte) (leadingZeros : Bit) (font : List Byte) :
    Statement (.dtShowhex number dots leadingZeros font) :=
  fun _ => ⟨rfl, rfl, (by decide : opShowhex >>> 4 = 0x2#8)⟩
theorem dtShowudec (number : Word32) (dots : Byte) (leadingZeros : Bit) (font : List Byte) :
    Statement (.dtShowudec number dots leadingZeros font) :=
  fun _ => ⟨rfl, rfl, (by decide : opShowudec >>> 4 = 0x2#8)⟩
theorem dtShowsdec (number : Word32) (dots : Byte) (leadingZeros : Bit) (font : List Byte) :
    Statement (.dtShowsdec number dots leadingZeros font) :=
  fun _ => ⟨rfl, rfl, (by decide : opShowsdec >>> 4 = 0x2#8)⟩
theorem kdDecode (rep : KeyReport) : Statement (.kdDecode rep) :=
  fun _ => ⟨rfl, rfl, (by decide : opDecode >>> 4 = 0x3#8)⟩
theorem kdGetkeys : Statement .kdGetkeys := fun _ => ⟨rfl, rfl, rfl⟩
theorem wireCmdWrite : Statement .wireCmdWrite := fun _ => ⟨rfl, rfl⟩
theorem wireAddr (a : Byte) : Statement (.wireAddr a) := fun _ => ⟨rfl, rfl⟩
theorem wireDispctl (f : Bit) (n : BitVec 3) : Statement (.wireDispctl f n) := fun _ => ⟨rfl, rfl⟩
theorem wireReadKeys : Statement .wireReadKeys := fun _ => ⟨rfl, rfl⟩
theorem wireData (d : Byte) : Statement (.wireData d) := fun _ => ⟨rfl, rfl⟩

end Sys2Proof.Laws.OpcodeFamily
end

