-- ==== Sys2Proof/Tests/Slice0.lean ====
section
/-! SUPPORT. Tests of single steps and decodings; every expected value is from spec/ (95_test_vectors.md where a vector is named). -/

namespace Sys2Proof.Tests

open Sys2Proof.Machine

/-! ## Fixtures (95_test_vectors.md, section 1) -/

/-- `REMAP_ID`. -/
def remapId : KeyRemap :=
  #v[some 0, some 1, some 2, some 3, some 4, some 5, some 6, some 7]

/-- `SWAP` of section 3.4. -/
def remapSwap : KeyRemap :=
  #v[some 4, some 5, some 6, some 7, some 0, some 1, some 2, some 3]

/-- `C0` with `d` digits. -/
def c0 (d : Nat) : Config where
  digits := d
  tBit := 1
  tByte := 1
  cmdWrite := 0x40#8
  addrCmdBase := 0xC0#8
  cmdDisplayBase := 0x80#8
  displayOnFlag := 0x08#8
  cmdReadKeys := 0x42#8
  writeFraming := .oneWindow
  intensityPolicy := .reject
  fmtPadWidth := d
  keyRemap := remapId
  cfgActive := true
  cfgIntensity := 7#3
  addrSpace := 16
  lines := ⟨0, 1, 2⟩

/-- An entry of the font `FIX`. -/
def fixEntry (code : Nat) : Byte :=
  match code with
  | 45 => 0x40#8 | 48 => 0x3F#8 | 49 => 0x06#8 | 50 => 0x5B#8 | 51 => 0x4F#8 | 52 => 0x66#8
  | 53 => 0x6D#8 | 54 => 0x7D#8 | 55 => 0x07#8 | 56 => 0x7F#8 | 57 => 0x6F#8 | 65 => 0x77#8
  | 66 => 0x7C#8 | 67 => 0x39#8 | 68 => 0x5E#8 | 69 => 0x79#8 | 70 => 0x71#8 | 72 => 0x76#8
  | 73 => 0x06#8 | _ => 0x00#8

/-- The font `FIX`. -/
def fix : List Byte := (List.range 96).map fun i => fixEntry (i + 32)

/-- `Reset(C0)`. -/
def start : State := State.resetWith (c0 8)

/-- After B1: a window is open. -/
def opened : State :=
  { start with stb := false, trace := [.stb false, .wait .bit], reqIndex := 1 }

/-- After F1: the block is halted. -/
def stopped : State := faultEntry 0x00#8 .illegalOperation (.op 0x00#8) start

/-- The environment answers these bytes. -/
def answering (bs : List Byte) (s : State) : State :=
  { s with samples := bs.flatMap fun b => bitCells.map fun k => b.getLsbD k }

/-- A field of the next state. -/
def after {α : Type} (f : State → α) (o : Host.Outcome State Fault Refusal) : Option α :=
  match o with
  | .next t => some (f t)
  | .fault _ => none
  | .refused _ => none

/-- The reason and the info of the recorded fault. -/
def faultOf (s : State) : Option (Reason × FaultInfo) := s.fault.map fun r => (r.reason, r.info)

/-- What the trace says beside the given events. -/
def framesAfter (s : State) : Option (List Frame) := frames s.trace

/-! ## Decoding: one word per constructor, written out from 30_encoding.md R62 to R69 -/

theorem test_decode_txnBegin : decodeRequest ⟨0b00000001#8, []⟩ = .instr .bbTxnBegin := by decide
theorem test_decode_txnEnd : decodeRequest ⟨0b00000010#8, []⟩ = .instr .bbTxnEnd := by decide
theorem test_decode_send : decodeRequest ⟨0b00000011#8, [.u8 0x8A#8]⟩ = .instr (.bbSend 0x8A#8) := by decide
theorem test_decode_recv : decodeRequest ⟨0b00000100#8, []⟩ = .instr .bbRecv := by decide
theorem test_decode_wrcmd : decodeRequest ⟨0b00010000#8, []⟩ = .instr .ceWrcmd := by decide
theorem test_decode_wrat :
    decodeRequest ⟨0b00010001#8, [.u8 0x02#8, .u8 0x5B#8]⟩ = .instr (.ceWrat 0x02#8 0x5B#8) := by decide
theorem test_decode_dispctl :
    decodeRequest ⟨0b00010010#8, [.bit true, .u8 7#8]⟩ = .instr (.ceDispctl true 7#8) := by decide
theorem test_decode_readkeys : decodeRequest ⟨0b00010011#8, []⟩ = .instr .ceReadkeys := by decide
theorem test_decode_setdisp :
    decodeRequest ⟨0b00100000#8, [.bytes [1#8]]⟩ = .instr (.dtSetdisp [1#8]) := by decide
theorem test_decode_clear : decodeRequest ⟨0b00100001#8, []⟩ = .instr .dtClear := by decide
theorem test_decode_str2buf :
    decodeRequest ⟨0b00100010#8, [.bytes [72#8], .u8 3#8, .bytes [9#8]]⟩ =
      .instr (.dtStr2buf [72#8] 3#8 [9#8]) := by decide
theorem test_decode_showstr :
    decodeRequest ⟨0b00100011#8, [.bytes [72#8], .u8 3#8, .bytes [9#8]]⟩ =
      .instr (.dtShowstr [72#8] 3#8 [9#8]) := by decide
theorem test_decode_showhex :
    decodeRequest ⟨0b00100100#8, [.u32 0xBEEF#32, .u8 0#8, .bit true, .bytes [9#8]]⟩ =
      .instr (.dtShowhex 0xBEEF#32 0#8 true [9#8]) := by decide
theorem test_decode_showudec :
    decodeRequest ⟨0b00100101#8, [.u32 1234#32, .u8 0#8, .bit false, .bytes [9#8]]⟩ =
      .instr (.dtShowudec 1234#32 0#8 false [9#8]) := by decide
theorem test_decode_showsdec :
    decodeRequest ⟨0b00100110#8, [.i32 (-5#32), .u8 0#8, .bit true, .bytes [9#8]]⟩ =
      .instr (.dtShowsdec (-5#32) 0#8 true [9#8]) := by decide
theorem test_decode_decode :
    decodeRequest ⟨0b00110000#8, [.report #v[1#8, 0#8, 0#8, 16#8]]⟩ =
      .instr (.kdDecode #v[1#8, 0#8, 0#8, 16#8]) := by decide
theorem test_decode_getkeys : decodeRequest ⟨0b00110001#8, []⟩ = .instr .kdGetkeys := by decide
theorem test_decode_wireCmdWrite : decodeWire (c0 8) 0b01000000#8 = .wireCmdWrite := by decide
theorem test_decode_wireAddr : decodeWire (c0 8) 0b11000010#8 = .wireAddr 2#8 := by decide
theorem test_decode_wireDispctl : decodeWire (c0 8) 0b10001111#8 = .wireDispctl true 7#3 := by decide
theorem test_decode_wireReadKeys : decodeWire (c0 8) 0b01000010#8 = .wireReadKeys := by decide
theorem test_decode_wireData : decodeWire (c0 8) 0b01011011#8 = .wireData 0x5B#8 := by decide
/-- F2: an unassigned opcode. -/
theorem test_decode_illegal : decodeRequest ⟨0x27#8, []⟩ = .illegalOpcode 0x27#8 := by decide
theorem test_decode_mismatch : decodeRequest ⟨0x03#8, []⟩ = .operandMismatch 0x03#8 := by decide

/-! ## Well-formedness: an ill-formed term for each check (R66) -/

theorem test_wellFormed_addr : Instr.wellFormed (.wireAddr 14#8) = true := by decide
theorem test_illFormed_odd_addr : Instr.wellFormed (.wireAddr 3#8) = false := by decide
theorem test_illFormed_wide_addr : Instr.wellFormed (.wireAddr 16#8) = false := by decide

/-! ## The configuration constraints (R7) -/

theorem test_valid_c0 : (c0 8).valid = true := by decide
theorem test_invalid_digits : (c0 9).valid = false := by decide
theorem test_invalid_no_digit : (c0 0).valid = false := by decide
theorem test_invalid_two_flag_bits : ({ c0 8 with displayOnFlag := 0x18#8 } : Config).valid = false := by decide
theorem test_invalid_base_overlap : ({ c0 8 with cmdDisplayBase := 0x84#8 } : Config).valid = false := by decide
theorem test_invalid_addr_base : ({ c0 8 with addrCmdBase := 0xC8#8 } : Config).valid = false := by decide
theorem test_invalid_addr_space : ({ c0 8 with addrSpace := 14 } : Config).valid = false := by decide
theorem test_argument_valid : Config.argument.valid = true := by decide

/-! ## BitBus (3.1) -/

/-- B1. -/
theorem test_txnBegin :
    after (fun t => (t.trace, t.stb, t.result, t.reqIndex)) (exec .bbTxnBegin start) =
      some ([.stb false, .wait .bit], false, .none, 1) := by decide
/-- B9. -/
theorem test_txnBegin_open :
    after (fun t => (t.fault, t.stb, t.trace)) (exec .bbTxnBegin opened) =
      some (some ⟨.contractViolation, .txnOpen, 0x01#8, 1, .empty⟩, true,
        [.stb false, .wait .bit, .stb true, .wait .bit]) := by decide
/-- B5. -/
theorem test_txnEnd :
    after (fun t => (framesAfter t, t.stb)) (exec .bbTxnEnd opened) = some (some [⟨[], true⟩], true) := by decide
/-- B8. -/
theorem test_txnEnd_closed :
    after (fun t => (t.fault, t.trace)) (exec .bbTxnEnd start) =
      some (some ⟨.contractViolation, .noTxn, 0x02#8, 0, .empty⟩, []) := by decide
/-- B2. -/
theorem test_send :
    after (fun t => (t.trace.length, t.trace.filterMap
        (fun e => match e with | .dioOut l => some l | _ => none), t.dioOut, t.clk))
      (exec (.bbSend 0xA5#8) opened) =
      some (50, [true, false, true, false, false, true, false, true], true, true) := by decide
/-- B6. -/
theorem test_send_closed :
    after (fun t => (t.fault, t.trace)) (exec (.bbSend 0#8) start) =
      some (some ⟨.contractViolation, .noTxn, 0x03#8, 0, .empty⟩, []) := by decide
/-- B3. -/
theorem test_recv :
    after (fun t => (t.result, t.dioOut, t.dioDir, t.trace.length)) (exec .bbRecv (answering [0x8D#8] opened)) =
      some (.byte 0x8D#8, false, .output, 44) := by decide
/-- B7. -/
theorem test_recv_closed :
    after (fun t => (t.fault, t.trace)) (exec .bbRecv start) =
      some (some ⟨.contractViolation, .noTxn, 0x04#8, 0, .empty⟩, []) := by decide

/-! ## CommandEncoder (3.2) -/

/-- E1. -/
theorem test_wrcmd :
    after (fun t => (framesAfter t, t.trace.length)) (exec .ceWrcmd start) =
      some (some [⟨[.tx 0x40#8], true⟩], 52) := by decide
/-- P6. -/
theorem test_wrcmd_open :
    after (fun t => (faultOf t, t.stb)) (exec .ceWrcmd opened) = some (some (.txnOpen, .empty), true) := by decide
/-- E2. -/
theorem test_wrat :
    after (fun t => (framesAfter t, writtenWord t.cfg t.trace 2#8)) (exec (.ceWrat 2#8 0x5B#8) start) =
      some (some [⟨[.tx 0x40#8, .tx 0xC2#8, .tx 0x5B#8], true⟩], some 0x5B#8) := by decide +kernel
/-- E7. -/
theorem test_wrat_twoWindows :
    after (fun t => (framesAfter t, t.trace.length))
        (exec (.ceWrat 2#8 0x5B#8) { start with cfg := { c0 8 with writeFraming := .twoWindows } }) =
      some (some [⟨[.tx 0x40#8], true⟩, ⟨[.tx 0xC2#8, .tx 0x5B#8], true⟩], 152) := by decide +kernel
/-- E11. -/
theorem test_dispctl :
    after (fun t => (framesAfter t, t.active, t.intensity)) (exec (.ceDispctl false 3#8) start) =
      some (some [⟨[.tx 0x83#8], true⟩], false, 3#3) := by decide +kernel
/-- E14. -/
theorem test_dispctl_clamp :
    after (fun t => (framesAfter t, t.intensity))
        (exec (.ceDispctl true 9#8) { start with cfg := { c0 8 with intensityPolicy := .clamp } }) =
      some (some [⟨[.tx 0x8F#8], true⟩], 7#3) := by decide +kernel
/-- E15. -/
theorem test_readkeys :
    after (fun t => (framesAfter t, t.result, t.trace.count (.wait .bit), t.trace.count (.wait .byte)))
        (exec .ceReadkeys (answering [0x01#8, 0#8, 0#8, 0x10#8] start)) =
      some (some [⟨[.tx 0x42#8, .rx 0x01#8, .rx 0#8, .rx 0#8, .rx 0x10#8], true⟩],
        .report #v[0x01#8, 0#8, 0#8, 0x10#8], 90, 8) := by decide +kernel

/-- E8 and E11 read back by R55: 0x8F is on with 7, 0x83 is off with 3, and a write frame is no display control. -/
theorem test_displayControlOf :
    displayControlOf (c0 8) ⟨[.tx 0x8F#8], true⟩ = some (true, 7#3) ∧
    displayControlOf (c0 8) ⟨[.tx 0x83#8], true⟩ = some (false, 3#3) ∧
    displayControlOf (c0 8) ⟨[.tx 0x40#8, .tx 0xC2#8, .tx 0x5B#8], true⟩ = none := by decide

/-! ## Checks and their order (R161, R164) -/

/-- E5. -/
theorem test_wrat_position :
    after faultOf (exec (.ceWrat 0x10#8 0x12#8) start) = some (some (.position, .addr 16#8)) := by decide
/-- E6. -/
theorem test_wrat_parity_first :
    after faultOf (exec (.ceWrat 0xFF#8 0x12#8) start) = some (some (.oddAddress, .addr 255#8)) := by decide
/-- E12. -/
theorem test_dispctl_reject :
    after (fun t => (faultOf t, t.trace, t.intensity)) (exec (.ceDispctl true 8#8) start) =
      some (some (.intensity, .intensity 8#8), [], 7#3) := by decide
/-- E17. -/
theorem test_wrat_strobe_first :
    after faultOf (exec (.ceWrat 0x0F#8 0#8) opened) = some (some (.txnOpen, .empty)) := by decide

/-- The codes of R160 and R161. -/
theorem test_reason_codes :
    [Reason.illegalOperation, .txnOpen, .noTxn, .oddAddress, .position, .intensity, .len, .fontShort, .fontIndexLow,
      .fontIndexHigh].map reasonCode =
      [0x00#8, 0x01#8, 0x02#8, 0x10#8, 0x11#8, 0x20#8, 0x30#8, 0x40#8, 0x41#8, 0x42#8] ∧
    [FaultKind.illegalOperation, .contractViolation].map kindCode = [1#8, 2#8] := by decide

/-! ## DisplayTransform (3.3) -/

/-- X1. -/
theorem test_setdisp :
    after (fun t => (framesAfter t, t.trace.length))
        (exec (.dtSetdisp [1#8, 2#8, 4#8, 8#8]) (State.resetWith (c0 4))) =
      some (some [⟨[.tx 0x40#8, .tx 0xC0#8, .tx 8#8], true⟩, ⟨[.tx 0x40#8, .tx 0xC2#8, .tx 4#8], true⟩,
        ⟨[.tx 0x40#8, .tx 0xC4#8, .tx 2#8], true⟩, ⟨[.tx 0x40#8, .tx 0xC6#8, .tx 1#8], true⟩], 592) := by
  decide +kernel
/-- X2. -/
theorem test_setdisp_len :
    after (fun t => (faultOf t, t.trace))
        (exec (.dtSetdisp [1#8, 2#8, 3#8, 4#8, 5#8]) (State.resetWith (c0 4))) =
      some (some (.len, .len 5), []) := by decide
/-- R126 with two digits: both planes are written with 0. -/
theorem test_clear :
    after (fun t => (writtenWord t.cfg t.trace 0#8, writtenWord t.cfg t.trace 2#8))
        (exec .dtClear (State.resetWith (c0 2))) = some (some 0#8, some 0#8) := by decide +kernel
/-- S8, first line. -/
theorem test_transpose :
    transpose 8 [0x12#8, 0x34#8, 0x56#8, 0x78#8, 0x9A#8, 0xBC#8, 0xDE#8, 0xF0#8] =
      [0x00#8, 0xAA#8, 0x66#8, 0x1E#8, 0xFF#8, 0x55#8, 0x33#8, 0x0F#8] := by decide
/-- T9: bits 4 to 7 are lost with four digits. -/
theorem test_transpose_four : transpose 4 [0xFF#8] = [8#8, 8#8, 8#8, 8#8] := by decide
/-- S6. -/
theorem test_str2buf :
    after (fun t => (t.buf, t.result, t.trace)) (exec (.dtStr2buf [72#8, 73#8] 3#8 fix) start) =
      some ([0x76#8, 0x06#8, 0#8, 0#8, 0#8, 0#8, 0x80#8, 0x80#8],
        .buffer [0x76#8, 0x06#8, 0#8, 0#8, 0#8, 0#8, 0x80#8, 0x80#8], []) := by decide +kernel
/-- X15. -/
theorem test_str2buf_high_first :
    after faultOf (exec (.dtStr2buf [200#8, 5#8] 0#8 fix) start) =
      some (some (.fontIndexHigh, .char 0 200#8)) := by decide +kernel
/-- V1. -/
theorem test_showstr :
    after (fun t => (t.buf, transpose 8 t.buf)) (exec (.dtShowstr [72#8, 73#8] 3#8 fix) start) =
      some ([0x76#8, 0x06#8, 0#8, 0#8, 0#8, 0#8, 0x80#8, 0x80#8],
        [0x00#8, 0xC0#8, 0xC0#8, 0x00#8, 0x80#8, 0x80#8, 0x80#8, 0x03#8]) := by decide +kernel
/-- X17. -/
theorem test_showstr_open :
    after faultOf (exec (.dtShowstr [72#8, 73#8] 0#8 fix) opened) = some (some (.txnOpen, .empty)) := by decide
/-- N1. -/
theorem test_showhex :
    after (·.buf) (exec (.dtShowhex 0xBEEF#32 0#8 true fix) start) =
      some [0x3F#8, 0x3F#8, 0x3F#8, 0x3F#8, 0x7C#8, 0x79#8, 0x79#8, 0x71#8] := by decide +kernel
/-- N18: the legacy pad width on four digits. -/
theorem test_showhex_legacy :
    after (·.buf) (exec (.dtShowhex 0x1F#32 0#8 true fix)
        (State.resetWith { c0 4 with fmtPadWidth := 8 })) =
      some [0x3F#8, 0x3F#8, 0x3F#8, 0x3F#8] := by decide +kernel
/-- N10. -/
theorem test_showudec :
    after (·.buf) (exec (.dtShowudec 4294967295#32 0#8 false fix) start) =
      some [0x66#8, 0x5B#8, 0x6F#8, 0x66#8, 0x6F#8, 0x7D#8, 0x07#8, 0x5B#8] := by decide +kernel
/-- N8. -/
theorem test_showudec_zero :
    after (·.buf) (exec (.dtShowudec 0#32 0#8 false fix) start) =
      some [0x3F#8, 0#8, 0#8, 0#8, 0#8, 0#8, 0#8, 0#8] := by decide +kernel
/-- N11. -/
theorem test_showsdec :
    after (·.buf) (exec (.dtShowsdec (-5#32) 0#8 true fix) start) =
      some [0x40#8, 0x3F#8, 0x3F#8, 0x3F#8, 0x3F#8, 0x3F#8, 0x3F#8, 0x6D#8] := by decide +kernel
/-- N15. -/
theorem test_showsdec_min :
    after (·.buf) (exec (.dtShowsdec 0x80000000#32 0#8 false fix) start) =
      some [0x40#8, 0x5B#8, 0x06#8, 0x66#8, 0x07#8, 0x66#8, 0x7F#8, 0x4F#8] := by decide +kernel

/-! ## KeyScanDecoder (3.4) -/

/-- K10. -/
theorem test_decodeKeys :
    after (·.result) (exec (.kdDecode #v[0x02#8, 0x20#8, 0x01#8, 0x10#8]) start) = some (.mask 0x4812#16) := by
  decide +kernel
/-- K5 and K4: a merged bit, and a bit that is cut. -/
theorem test_fold_corners :
    decodeKeys remapId #v[0#8, 0#8, 0#8, 0x08#8] = 0x0200#16 ∧
      decodeKeys remapId #v[0#8, 0#8, 0#8, 0x80#8] = 0#16 := by decide +kernel
/-- The vector with `SWAP`. -/
theorem test_remap_swap : decodeKeys remapSwap #v[0x01#8, 0#8, 0#8, 0#8] = 0x0100#16 := by decide +kernel
/-- KD1. -/
theorem test_getkeys :
    after (fun t => (t.result, t.trace.length, t.dioOut))
        (exec .kdGetkeys (answering [0x01#8, 0#8, 0#8, 0x10#8] start)) =
      some (.mask 0x4001#16, 228, false) := by decide +kernel
/-- KD3. -/
theorem test_getkeys_open :
    after faultOf (exec .kdGetkeys opened) = some (some (.txnOpen, .empty)) := by decide

/-! ## Wire bytes (R65 to R69) -/

theorem test_wireCmdWrite :
    after (fun t => (t.trace.length, t.dioOut, t.reqIndex)) (exec .wireCmdWrite opened) =
      some (50, false, 1) := by decide
theorem test_wireAddr :
    after (fun t => t.trace.drop 2 == sendEvents 0xC2#8) (exec (.wireAddr 2#8) opened) = some true := by decide
theorem test_wireAddr_reserved : exec (.wireAddr 3#8) opened = .fault .reservedAddressByte := by rfl
theorem test_wireDispctl :
    after (fun t => t.trace.drop 2 == sendEvents 0x8F#8) (exec (.wireDispctl true 7#3) opened) = some true := by decide
theorem test_wireReadKeys :
    after (fun t => t.trace.drop 2 == sendEvents 0x42#8) (exec .wireReadKeys opened) = some true := by decide
theorem test_wireData :
    after (fun t => t.trace.drop 2 == sendEvents 0x5B#8) (exec (.wireData 0x5B#8) opened) = some true := by decide
theorem test_wire_outside_window : exec (.wireData 0x5B#8) start = .fault .sendOutsideWindow := by rfl

/-! ## Faults, halting, reset and the step (3.5) -/

/-- F1. -/
theorem test_illegal :
    after (fun t => (t.fault, t.trace)) (step { start with inputs := [.code (.request ⟨0#8, []⟩)] }) =
      some (some ⟨.illegalOperation, .illegalOperation, 0#8, 0, .op 0#8⟩, []) := by decide
/-- F5: before the strobe check, and the strobe is released. -/
theorem test_illegal_open :
    after (fun t => (faultOf t, t.stb, t.trace.drop 2))
        (step { opened with inputs := [.code (.request ⟨0xFF#8, []⟩)] }) =
      some (some (.illegalOperation, .op 0xFF#8), true, [.stb true, .wait .bit]) := by decide
/-- F3. -/
theorem test_halted :
    after (fun t => (t.trace, faultOf t, t.reqIndex))
        (step { stopped with inputs := [.code (.request ⟨0x10#8, []⟩)] }) =
      some ([], some (.illegalOperation, .op 0#8), 0) := by decide
/-- F4. -/
theorem test_reset :
    after (fun t => (t.fault, t.stb, t.intensity)) (step { stopped with inputs := [.reset (c0 8)] }) =
      some (none, true, 7#3) := by decide
theorem test_invalid_config_refused : step { start with cfg := c0 9 } = .refused .invalidConfig := by rfl
theorem test_wait : step start = .next start := by rfl

/-! ## The opcode table's words -/

theorem test_table_request : decodeTableWord 8 0x11 = some (.ceWrat 0#8 0#8) := by decide
theorem test_table_wire :
    decodeTableWord 8 0xC2 = some (.wireAddr 2#8) ∧ decodeTableWord 8 0x00 = some (.wireData 0#8) := by decide
theorem test_fetch_first :
    after (fun t => (t.reqIndex, t.stb)) (step (State.reset.withFetchWord 8 0x01)) = some (1, false) := by decide

/-! ## Witnesses: for each obligation with hypotheses, states and operands that meet them, at the ends of their ranges -/

/-- `start` with a request offered. -/
def offered (op : Byte) (operands : List Operand) (s : State) : State :=
  { s with inputs := [.code (.request ⟨op, operands⟩)] }

/-- `Reset(C0)` with one digit. -/
def small : State := State.resetWith (c0 1)

theorem start_idle : start.Idle := by decide
theorem opened_inWindow : opened.InWindow := by decide
theorem start_inv : start.Inv ∧ traceParses start = true ∧ frames start.trace = some [] := by decide
theorem opened_inv :
    opened.Inv ∧ traceParses opened = true ∧ frames opened.trace = some [⟨[], false⟩] := by decide
theorem stopped_inv : stopped.Inv ∧ traceParses stopped = true := by decide

theorem witness_DecodeAndEncodeAgree :
    (Instr.wellFormed (.ceWrat 0xFF#8 0xFF#8) = true ∧ Instr.isRequest (.ceWrat 0xFF#8 0xFF#8) = true) ∧
      decodeRequest ⟨0x11#8, [.u8 0xFF#8, .u8 0#8]⟩ = .instr (.ceWrat 0xFF#8 0#8) := by decide
theorem witness_DefaultWireBytesDecode :
    (c0 8).cmdWrite = 0x40#8 ∧ (c0 8).cmdReadKeys = 0x42#8 ∧ (c0 8).cmdDisplayBase = 0x80#8 ∧
      (c0 8).displayOnFlag = 0x08#8 ∧ (c0 8).addrCmdBase = 0xC0#8 ∧ (c0 8).digits = 8 ∧
      (∀ i ∈ [Instr.wireCmdWrite, .wireReadKeys, .wireAddr 0#8, .wireAddr 14#8, .wireDispctl false 0#3,
        .wireDispctl true 7#3, .wireData 0xFF#8], i.isRequest = false ∧ i.wellFormed = true) ∧
      ∀ d ∈ [0x00#8, 0x3F#8, 0x41#8, 0x43#8, 0x90#8, 0xC1#8, 0xFF#8],
        d ≠ 0x40#8 ∧ d ≠ 0x42#8 ∧ d &&& 0xF0#8 ≠ 0x80#8 ∧ d &&& 0xF1#8 ≠ 0xC0#8 := by decide
theorem witness_UnassignedOpcodeIsIllegal :
    ∀ op ∈ [0x00#8, 0x05#8, 0x0F#8, 0x14#8, 0x1F#8, 0x27#8, 0x2F#8, 0x32#8, 0xFF#8],
      (op = 0x00#8 ∨ (0x05#8 ≤ op ∧ op ≤ 0x0F#8) ∨ (0x14#8 ≤ op ∧ op ≤ 0x1F#8) ∨
        (0x27#8 ≤ op ∧ op ≤ 0x2F#8) ∨ 0x32#8 ≤ op) ∧
      (offered op [.u8 1#8] opened).Serving ∧
      (offered op [.u8 1#8] opened).inputs = .code (.request ⟨op, [.u8 1#8]⟩) :: [] := by decide
theorem witness_StepRunsTheDecodedInstruction :
    (({ stopped with inputs := [.reset (c0 1)] } : State).inputs = .reset (c0 1) :: [] ∧
      start.inputs = [] ∧ start.cfg.valid = true) ∧
    (offered 0x10#8 [] start).inputs = .code (.request ⟨0x10#8, []⟩) :: [] ∧
      decode (offered 0x10#8 [] start).cfg (.request ⟨0x10#8, []⟩) = .instr .ceWrcmd := by decide
theorem witness_PlacedWordRunsNext :
    State.reset.cfg = Config.argument ∧ decodeTableWord 8 0x31 = some .kdGetkeys ∧
      decodeTableWord 8 0xCE = some (.wireAddr 14#8) := ⟨rfl, by decide, by decide⟩
theorem witness_ResetSetsEveryElement : (c0 1).valid = true ∧ (c0 8).valid = true := by decide
theorem witness_BadConfigurationIsRefused :
    ({ start with cfg := c0 9 } : State).cfg.valid = false ∧
      (∀ c rest, ({ start with cfg := c0 9 } : State).inputs ≠ .reset c :: rest) ∧
      ({ start with inputs := [.reset (c0 0)] } : State).inputs = .reset (c0 0) :: [] ∧ (c0 0).valid = false :=
  ⟨by decide, by simp [start, State.resetWith], by decide, by decide⟩
theorem witness_ResetMeetsTheInvariants : (c0 1).valid = true ∧ (c0 8).valid = true := by decide
theorem witness_FaultsAreEarlyAndPrecise :
    opened.fault = none ∧ ∃ t, exec .ceWrcmd opened = .next t ∧ t.fault ≠ none :=
  ⟨rfl, _, rfl, by decide⟩
theorem witness_OnlyListedReasonsAreRaised :
    start.fault = none ∧ ∃ t r, exec (.dtShowhex 0#32 0#8 false []) start = .next t ∧ t.fault = some r :=
  ⟨rfl, _, _, rfl, rfl⟩
theorem witness_HaltedBlockTakesNoRequest :
    stopped.cfg.valid = true ∧ (∃ r, stopped.fault = some r) ∧
      (∃ t, step (offered 0x10#8 [] stopped) = .next t) ∧
      ∃ t, step { stopped with inputs := [.reset (c0 8)] } = .next t :=
  ⟨by decide, ⟨_, rfl⟩, ⟨_, rfl⟩, _, rfl⟩
theorem witness_CompositeOperationsNeedTheBusIdle :
    isComposite (.ceWrat 0x10#8 0#8) = true ∧ opened.InWindow ∧ start.Serving ∧
      (∃ t, exec (.ceWrat 0x10#8 0#8) start = .next t) ∧
      isComposite .kdGetkeys = true ∧ ∃ t, exec .kdGetkeys start = .next t :=
  ⟨rfl, by decide, by decide, ⟨_, rfl⟩, rfl, _, rfl⟩
theorem witness_EveryRequestAnswersANextState :
    Instr.isRequest (.dtSetdisp []) = true ∧ start.cfg.valid = true ∧ stopped.cfg.valid = true := by decide
theorem witness_TxnBeginOpensAWindow : start.Idle ∧ opened.InWindow ∧ isComposite .dtClear = true := by decide
theorem witness_TxnEndClosesTheWindow : opened.InWindow ∧ start.Idle := by decide
theorem witness_SendClocksOneByteOut : opened.InWindow ∧ start.Idle := by decide
theorem witness_RecvAnswersTheSampledByte : opened.InWindow ∧ start.Idle := by decide
theorem witness_WrcmdSendsTheWriteMode : start.Idle ∧ opened.InWindow := by decide
/-- The ends of the address ranges with eight digits: 14 is written, 15 is odd, 16 has no position. -/
theorem witness_WratWritesOneRegister :
    start.Idle ∧ opened.InWindow ∧
      ((14#8).toNat % 2 = 0 ∧ (14#8).toNat < 2 * start.cfg.digits) ∧
      (15#8).toNat % 2 = 1 ∧ ((16#8).toNat % 2 = 0 ∧ 2 * start.cfg.digits ≤ (16#8).toNat) := by decide
/-- 7 is the last intensity sent as it is; 8 is clamped or rejected. -/
theorem witness_DispctlSendsAndRecordsTheControl :
    start.Idle ∧ opened.InWindow ∧ (7#3).toNat = (7#8).toNat ∧
      (7 < (8#8).toNat ∧ start.cfg.intensityPolicy = .reject) ∧
      ({ start with cfg := { c0 8 with intensityPolicy := .clamp } } : State).Idle ∧
      7 < (8#8).toNat ∧ 7 < (255#8).toNat := by decide
theorem witness_ReadkeysAnswersTheReport : start.Idle ∧ opened.InWindow := by decide
theorem witness_OnlyKeyReadsWaitBetweenBytes :
    start.Serving ∧ (∃ t, exec .ceReadkeys start = .next t ∧ t.fault = none) ∧
      ∃ t, exec .ceWrcmd start = .next t ∧ t.fault = none :=
  ⟨by decide, ⟨_, rfl, rfl⟩, _, rfl, rfl⟩
/-- No value, and as many as there are digits; bits below the last value's, and past the digits. -/
theorem witness_TransposePlacesEveryBit :
    (8 ≤ 8 ∧ ([] : List Byte).length ≤ 8 ∧ 7 < 8 - ([] : List Byte).length) ∧
      (4 ≤ 8 ∧ [1#8, 2#8, 4#8, 8#8].length ≤ 4 ∧ [1#8, 2#8, 4#8, 8#8][3]? = some 8#8 ∧ 4 ≤ 7) := by decide
theorem witness_TransposeLaws :
    2 ≤ 8 ∧ [1#8, 2#8].length = 2 ∧ (∀ b ∈ [1#8, 2#8], b.toNat < 2 ^ 2) ∧
      (transpose 2 [1#8, 2#8] = transpose 2 [1#8, 2#8]) ∧ [1#8].length ≤ 2 ∧
      [1#8, 2#8].length = [0x81#8, 0x82#8].length ∧
      ∀ j < 2, ∀ k < 2,
        ([1#8, 2#8].getD j 0#8).getLsbD k = ([0x81#8, 0x82#8].getD j 0#8).getLsbD k := by decide
/-- Eight values fit eight digits; nine do not. -/
theorem witness_SetdispWritesThePlanes :
    start.Idle ∧ opened.InWindow ∧ (List.replicate 8 0xFF#8).length ≤ start.cfg.digits ∧
      start.cfg.digits < (List.replicate 9 0xFF#8).length := by decide
theorem witness_ClearWritesZeroPlanes : start.Idle ∧ opened.InWindow := by decide
theorem witness_DotsReadTheMaskInReverse :
    (8 ≤ 8 ∧ 7 < 8) ∧ (4 ≤ 8 ∧ 3 < 4 ∧ ∀ k < 4, (0xF1#8).getLsbD k = (0x01#8).getLsbD k) := by decide
/-- The lowest and the highest code of a font of 96 entries, and a position past the end. -/
theorem witness_BufferHoldsFontEntriesAndDots :
    (0 < 8 ∧ [32#8, 127#8][0]? = some 32#8 ∧ 32 ≤ (32#8).toNat ∧ fix[(32#8).toNat - 32]? = some 0#8) ∧
      (1 < 8 ∧ [32#8, 127#8][1]? = some 127#8 ∧ fix[(127#8).toNat - 32]? = some 0#8) ∧
      2 < 8 ∧ [32#8, 127#8].length ≤ 2 := by decide
theorem witness_TextOutsideTheDisplay : 8 ≤ 8 ∧ 7 < 8 ∧ [72#8, 73#8].length ≤ 7 ∧ [72#8, 73#8].length ≤ 2 := by
  decide
theorem witness_TextCanBeReadBack :
    8 ≤ 8 ∧ [72#8, 45#8].length ≤ 8 ∧
      (∀ c ∈ [72#8, 45#8], 32 ≤ c.toNat ∧ ∃ e, fix[c.toNat - 32]? = some e ∧ e.getLsbD 7 = false) ∧
      (∀ c ∈ [72#8, 45#8], ∀ d ∈ [72#8, 45#8], fix[c.toNat - 32]? = fix[d.toNat - 32]? → c = d) ∧
      (∀ c ∈ [72#8, 45#8], c ∈ [72#8, 45#8]) ∧ [72#8, 45#8][1]? = some 45#8 := by
  refine ⟨by decide, by decide, ?_, by decide, by decide, by decide⟩
  intro c hc
  have h : c = 72#8 ∨ c = 45#8 := by simpa using hc
  rcases h with rfl | rfl
  · exact ⟨by decide, 0x76#8, by decide, by decide⟩
  · exact ⟨by decide, 0x40#8, by decide, by decide⟩
theorem witness_FontCheckFails :
    start.Idle ∧ start.cfg.digits = 8 ∧ fontChecks 8 [31#8] fix ≠ none := by decide
/-- A font of 95 entries is short; 31 is too low, 32 and 127 are in the font, 128 is too high. -/
theorem witness_FontChecksNameTheFirstFailure :
    (List.replicate 95 0#8).length < 96 ∧ 96 ≤ fix.length ∧
      (0 < 8 ∧ [31#8][0]? = some 31#8 ∧ (31#8).toNat < 32) ∧
      (1 < 8 ∧ [127#8, 128#8][1]? = some 128#8 ∧ 32 ≤ (128#8).toNat ∧ fix.length ≤ (128#8).toNat - 32 ∧
        ∀ j < 1, ∀ d, [127#8, 128#8][j]? = some d → 32 ≤ d.toNat ∧ d.toNat - 32 < fix.length) := by
  refine ⟨by decide, by decide, by decide, by decide, by decide, by decide, by decide, ?_⟩
  intro j hj d hd
  obtain rfl : j = 0 := by omega
  obtain rfl : 127#8 = d := by simpa using hd
  decide
theorem witness_Str2bufBuildsTheBuffer :
    opened.Serving ∧ fontChecks opened.cfg.digits [72#8] fix = none ∧
      fontChecks opened.cfg.digits [31#8] fix = some (.fontIndexLow, .char 0 31#8) := by decide
theorem witness_ShowstrBuildsAndShows :
    start.Idle ∧ opened.InWindow ∧ fontChecks start.cfg.digits [127#8] fix = none ∧
      fontChecks start.cfg.digits [128#8] fix = some (.fontIndexHigh, .char 0 128#8) := by decide
theorem witness_RenderingsOfZero : 0#32 = 0#32 ∧ 48#8 ∈ fmtHex 8 0#32 false ∧ 48#8 ∈ fmtUDec 8 0#32 false := by
  decide
theorem witness_ShowhexShowsTheRendering :
    start.Idle ∧ opened.InWindow ∧ 96 ≤ fix.length ∧ (List.replicate 95 0#8).length < 96 := by decide
theorem witness_ShowudecShowsTheRendering :
    start.Idle ∧ opened.InWindow ∧ 96 ≤ fix.length ∧ (List.replicate 95 0#8).length < 96 := by decide
theorem witness_ShowsdecShowsTheRendering :
    start.Idle ∧ opened.InWindow ∧ 96 ≤ fix.length ∧ (List.replicate 95 0#8).length < 96 := by decide
theorem witness_RemapMovesEachBit : 7 < 8 ∧ 0 < 8 := by decide
/-- A lossless table: the outputs 0, 1, 4 and 5, once each. -/
theorem witness_FoldLandsEachNibbleBit :
    (3 < 4 ∧ 15 < 16) ∧
      let dest : KeyRemap := #v[some 0, some 1, none, none, some 4, some 5, none, none]
      (∀ a b : Fin 8, ∀ d, dest[a] = some d → dest[b] = some d → a = b) ∧
      (∀ (a : Fin 8) (d : Fin 8), dest[a] = some d → d = 0 ∨ d = 1 ∨ d = 4 ∨ d = 5) ∧
      dest[(5 : Fin 8)] = some 5 := by decide +kernel
theorem witness_DecodeAnswersTheMask : start.Serving ∧ opened.Serving := by decide
theorem witness_GetkeysAnswersTheDecodedMask : start.Idle ∧ opened.InWindow := by decide
theorem witness_ReceivedBitsAreTheDraws :
    let s := answering [0x01#8, 0#8, 0#8, 0x80#8, 0xFF#8] start
    (answering [0x80#8] opened).InWindow ∧ s.Idle ∧ s.samples = ((#v[0x01#8, 0#8, 0#8, 0x80#8] : KeyReport).toList.flatMap fun b =>
      (List.range 8).map fun k => b.getLsbD k) ++ List.replicate 8 true := by decide
theorem witness_WireBytesAreClockedOut :
    opened.InWindow ∧ opened.cfg.cmdWrite = 0x40#8 ∧
      (0xCE#8 = opened.cfg.addrCmdBase ||| 14#8 ∧ (14#8).toNat % 2 = 0 ∧ (14#8).toNat < 2 * opened.cfg.digits) ∧
      0x8F#8 = opened.cfg.cmdDisplayBase ||| (if true then opened.cfg.displayOnFlag else 0#8) |||
        (7#3).setWidth 8 := by decide
theorem witness_WireBytesStopOutsideTheirFormat :
    opened.Serving ∧ (15#8).toNat % 2 = 1 ∧ 2 * opened.cfg.digits ≤ (16#8).toNat ∧ start.Idle ∧
      Instr.isRequest (.wireAddr 14#8) = false ∧ (14#8).toNat % 2 = 0 ∧ (14#8).toNat < 2 * start.cfg.digits := by
  decide
theorem witness_FrameOfEveryInstruction :
    ((∃ t, exec .ceWrcmd start = .next t ∧ t.fault = start.fault) ∧ writesControl .ceWrcmd = false ∧
      writesBuf .ceWrcmd = false ∧ takesSamples .ceWrcmd = false) ∧
    ((∃ t, exec .bbRecv opened = .next t) ∧ sendsByte .bbRecv = false) ∧
    ((∃ t, exec (.dtStr2buf [] 0#8 fix) opened = .next t) ∧ sendsByte (.dtStr2buf [] 0#8 fix) = false) ∧
    (Instr.isRequest .wireCmdWrite = false ∧ ∃ t, exec .wireCmdWrite opened = .next t) ∧
    ∃ t, exec .ceWrcmd opened = .next t ∧ t.fault ≠ none :=
  ⟨⟨⟨_, rfl, rfl⟩, rfl, rfl, rfl⟩, ⟨⟨_, rfl⟩, rfl⟩, ⟨⟨_, rfl⟩, rfl⟩, ⟨rfl, _, rfl⟩, _, rfl, by decide⟩
theorem witness_CompletionCountsAndAnswers :
    (Instr.isRequest .bbTxnBegin = true ∧ start.fault = none ∧
      ∃ t, exec .bbTxnBegin start = .next t ∧ t.fault = none) ∧
    (opened.fault = none ∧ ∃ t, exec .bbTxnBegin opened = .next t ∧ t.fault ≠ none) ∧
    stopped.fault ≠ none ∧ ∃ t, exec .bbTxnBegin stopped = .next t :=
  ⟨⟨rfl, rfl, _, rfl, rfl⟩, ⟨rfl, _, rfl, by decide⟩, by decide, _, rfl⟩
theorem witness_EventCountsPerRequest :
    Instr.isRequest .dtClear = true ∧ small.Serving ∧ ∃ t, exec .dtClear small = .next t ∧ t.fault = none :=
  ⟨rfl, by decide, _, rfl, rfl⟩
theorem witness_OnlyReadsObserveTheEnvironment :
    takesSamples .ceWrcmd = false ∧ ∃ t, exec .ceWrcmd start = .next t := ⟨rfl, _, rfl⟩
theorem witness_StepKeepsTheInvariant : opened.Inv ∧ ∃ t, step (offered 0x02#8 [] opened) = .next t :=
  ⟨by decide, _, rfl⟩
theorem witness_StepKeepsTheTraceParsable :
    traceParses (offered 0x02#8 [] opened) = true ∧ ∃ t, step (offered 0x02#8 [] opened) = .next t :=
  ⟨by decide, _, rfl⟩
theorem witness_CompositeOperationsPutTheirFrames :
    isComposite .dtClear = true ∧ small.Idle ∧ traceParses small = true ∧ frames small.trace = some [] ∧
      ∃ t, exec .dtClear small = .next t ∧ t.fault = none :=
  ⟨rfl, by decide, by decide, by decide, _, rfl, rfl⟩
theorem witness_DispctlFrameIsDisplayControl :
    isComposite (.ceDispctl false 7#8) = true ∧ start.Idle ∧ traceParses start = true ∧ frames start.trace = some [] ∧
      (∃ t, exec (.ceDispctl false 7#8) start = .next t ∧ t.fault = none) ∧
      start.cfg.cmdDisplayBase &&& start.cfg.displayOnFlag = 0#8 :=
  ⟨rfl, by decide, by decide, by decide, ⟨_, rfl, rfl⟩, by decide⟩
theorem witness_RawOperationsBuildOneFrame :
    (start.Serving ∧ traceParses start = true ∧ start.stb = true ∧ frames start.trace = some [] ∧
      ∃ t, exec .bbTxnBegin start = .next t) ∧
    (opened.Serving ∧ traceParses opened = true ∧ opened.stb = false ∧
      frames opened.trace = some ([] ++ [⟨[], false⟩]) ∧ (∃ t, exec (.bbSend 0xFF#8) opened = .next t) ∧
      (∃ t r, exec .bbRecv opened = .next t ∧ t.result = .byte r) ∧ ∃ t, exec .bbTxnEnd opened = .next t) :=
  ⟨⟨by decide, by decide, rfl, by decide, _, rfl⟩,
    by decide, by decide, rfl, by decide, ⟨_, rfl⟩, ⟨_, _, rfl, rfl⟩, _, rfl⟩
theorem witness_WratSetsTheWrittenWord :
    start.Idle ∧ traceParses start = true ∧ (∃ t, exec (.ceWrat 14#8 0xFF#8) start = .next t ∧ t.fault = none) ∧
      addrByte start.cfg 12#8 ≠ addrByte start.cfg 14#8 :=
  ⟨by decide, by decide, ⟨_, rfl, rfl⟩, by decide⟩
theorem witness_ClearZeroesEveryWrittenWord :
    small.Idle ∧ traceParses small = true ∧ (∃ t, exec .dtClear small = .next t) ∧
      ∀ i, i < small.cfg.digits → addrByte small.cfg 15#8 ≠ addrByte small.cfg (planeAddr i) :=
  ⟨by decide, by decide, ⟨_, rfl⟩, by decide⟩
theorem witness_ShownPlanesAreTheWrittenWords :
    small.Idle ∧ traceParses small = true ∧ planesDistinct small.cfg = true ∧
      (∃ t, exec (.dtSetdisp [1#8]) small = .next t ∧ t.fault = none) ∧
      showsText (.dtShowstr [72#8] 0#8 fix) = true ∧
      ∃ t, exec (.dtShowstr [72#8] 0#8 fix) small = .next t ∧ t.fault = none :=
  ⟨by decide, by decide, by decide, ⟨_, rfl, rfl⟩, rfl, _, rfl, rfl⟩
theorem witness_OtherInstructionsWriteNoRegister :
    mayWriteRegisters .ceWrcmd = false ∧ traceParses start = true ∧
      ∃ t, exec .ceWrcmd start = .next t ∧ t.fault = start.fault := ⟨rfl, by decide, _, rfl, rfl⟩

end Sys2Proof.Tests
end

section
/-! SUPPORT. Completion, fault entry and reset of the state record (10_state.md R30, R37): the proofs of the state family. -/

namespace Sys2Proof.Machine

/-! ## What fault entry leaves of the record -/

@[simp] theorem releaseStrobe_result (s : State) : (releaseStrobe s).result = s.result := by
  cases hs : s.stb with
  | true => rw [releaseStrobe_idle hs]
  | false => rw [releaseStrobe_open hs]

@[simp] theorem releaseStrobe_reqIndex (s : State) : (releaseStrobe s).reqIndex = s.reqIndex := by
  cases hs : s.stb with
  | true => rw [releaseStrobe_idle hs]
  | false => rw [releaseStrobe_open hs]

@[simp] theorem faultEntry_result (op : Byte) (reason : Reason) (info : FaultInfo) (s : State) :
    (faultEntry op reason info s).result = s.result := releaseStrobe_result s

@[simp] theorem faultEntry_reqIndex (op : Byte) (reason : Reason) (info : FaultInfo) (s : State) :
    (faultEntry op reason info s).reqIndex = s.reqIndex := releaseStrobe_reqIndex s

/-- A failed check records a fault and neither counts nor answers. -/
theorem raises_keeps_count {s t : State} {op : Byte} (h : Raises s t op) :
    t.fault ≠ none ∧ t.reqIndex = s.reqIndex ∧ t.result = s.result := by
  obtain ⟨reason, info, -, rfl⟩ := h
  exact ⟨faultEntry_ne_none op reason info s, by simp, by simp⟩

/-! ## What an instruction does to the count and the answer -/

/-- An instruction that performs leaves `fault`, and one that is a request counts itself and leaves its own kind of result
(R27, R30). -/
theorem performs_completes {i : Instr} {s t : State} (h : Performs s t i) :
    t.fault = s.fault ∧
      (i.isRequest = true → t.reqIndex = s.reqIndex + 1 ∧ resultFits i t.result = true) := by
  cases i
  case bbTxnBegin | bbTxnEnd | bbSend | bbRecv | ceWrcmd | ceReadkeys | dtClear | dtStr2buf | kdGetkeys =>
    obtain ⟨-, rfl⟩ := h
    exact ⟨rfl, fun _ => ⟨rfl, rfl⟩⟩
  case dtSetdisp | dtShowstr | dtShowhex | dtShowudec | dtShowsdec =>
    obtain ⟨-, -, rfl⟩ := h
    exact ⟨rfl, fun _ => ⟨rfl, rfl⟩⟩
  case ceWrat =>
    obtain ⟨-, -, -, rfl⟩ := h
    exact ⟨rfl, fun _ => ⟨rfl, rfl⟩⟩
  case ceDispctl =>
    obtain ⟨-, n, -, rfl⟩ := h
    exact ⟨rfl, fun _ => ⟨rfl, rfl⟩⟩
  case kdDecode =>
    obtain rfl := h
    exact ⟨rfl, fun _ => ⟨rfl, rfl⟩⟩
  case wireCmdWrite | wireDispctl | wireReadKeys | wireData =>
    obtain ⟨-, rfl⟩ := h
    exact ⟨rfl, nofun⟩
  case wireAddr =>
    obtain ⟨-, -, -, rfl⟩ := h
    exact ⟨rfl, nofun⟩

/-- While a fault is recorded no instruction changes anything (R166). -/
theorem exec_halted {i : Instr} {s t : State} (hf : s.fault ≠ none) (h : exec i s = .next t) : t = s := by
  obtain ⟨-, ⟨-, rfl⟩ | ⟨hn, -⟩⟩ := exec_next h
  · rfl
  · exact absurd hn hf

/-- A next state from a state without a fault is that of a failed check or of the instruction's own effect. -/
theorem exec_unfaulted {i : Instr} {s t : State} (hf : s.fault = none) (h : exec i s = .next t) :
    (∃ op, opcodeOf i = some op ∧ Raises s t op) ∨ Performs s t i := by
  obtain ⟨-, ⟨hn, -⟩ | ⟨-, h⟩⟩ := exec_next h
  · exact absurd hf hn
  · exact h

/-- Settles O50: a check that fails leaves the count and the answer, an effect that runs leaves no fault, and a halted
block does neither. -/
theorem completionCountsAndAnswers : Obligations.CompletionCountsAndAnswers := by
  refine ⟨fun i s t hr hf h => ?_, fun i s t hf h => ?_, fun c => ⟨rfl, rfl⟩⟩
  · rcases exec_unfaulted hf h with ⟨op, -, hraise⟩ | hperf
    · obtain ⟨hfault, hkept⟩ := raises_keeps_count hraise
      exact ⟨fun hn => absurd hn hfault, fun _ => hkept⟩
    · obtain ⟨hfault, hdone⟩ := performs_completes hperf
      exact ⟨fun _ => hdone hr, fun hn => absurd (hfault.trans hf) hn⟩
  · obtain rfl := exec_halted hf h
    exact ⟨rfl, rfl⟩

/-! ## Reset -/

/-- A reset with a configuration that meets R7 answers the state of R37; what the outside holds outlasts it (log 12). -/
theorem applyReset_valid {c : Config} (hv : c.valid = true) (s : State) :
    applyReset c s =
      .next { State.resetWith c with inputs := s.inputs, samples := s.samples, drawn := s.drawn } := by
  rw [applyReset, if_pos hv]

/-- Settles O7: every element is that of `State.resetWith`, and its buffer is `D` copies of the zero byte. -/
theorem resetSetsEveryElement : Obligations.ResetSetsEveryElement := by
  intro s c hv
  have hbuf : (State.resetWith c).buf.length = c.digits ∧ ∀ b ∈ (State.resetWith c).buf, b = 0#8 :=
    ⟨List.length_replicate, fun _ hb => List.eq_of_mem_replicate hb⟩
  exact ⟨_, applyReset_valid hv s, rfl, rfl, rfl, rfl, rfl, rfl, rfl, hbuf, rfl, rfl, rfl, rfl⟩

end Sys2Proof.Machine
end

section
/-! SUPPORT. Unassigned opcode bytes (30_encoding.md R64): the proofs of the encoding family. -/

namespace Sys2Proof.Machine

/-- The decoder rejects every opcode byte outside R62 before it reads an operand (R64). -/
theorem decodeRequest_unassigned {r : Request}
    (h : r.op = 0x00#8 ∨ (0x05#8 ≤ r.op ∧ r.op ≤ 0x0F#8) ∨ (0x14#8 ≤ r.op ∧ r.op ≤ 0x1F#8) ∨
      (0x27#8 ≤ r.op ∧ r.op ≤ 0x2F#8) ∨ 0x32#8 ≤ r.op) :
    decodeRequest r = .illegalOpcode r.op := by
  simp only [← BitVec.toNat_inj, BitVec.le_def, BitVec.reduceToNat] at h
  unfold decodeRequest
  split
  case h_18 => rfl
  all_goals omega -- the opcodes of R62 lie in none of the ranges

/-- The strobe release of fault entry in either strobe condition: the strobe ends high, and the trace grows only where a
window was open (R165). -/
theorem releaseStrobe_eq (s : State) :
    releaseStrobe s =
      { s with stb := true, trace := s.trace ++ (if s.stb then [] else [.stb true, .wait .bit]) } := by
  cases hs : s.stb with
  | true => rw [releaseStrobe_idle hs]; simp [← hs]
  | false => rw [releaseStrobe_open hs]; rfl

/-- The whole of fault entry as one record update (R162, R165). -/
theorem faultEntry_eq (op : Byte) (reason : Reason) (info : FaultInfo) (s : State) :
    faultEntry op reason info s =
      { s with stb := true, trace := s.trace ++ (if s.stb then [] else [.stb true, .wait .bit]),
               fault := some ⟨kindOf reason, reason, op, s.reqIndex, info⟩ } := by
  rw [faultEntry, releaseStrobe_eq]

/-- A code whose opcode the decoder rejects is met as an illegal operation. -/
theorem step_illegalOpcode {s : State} {k : Code} {rest : List Input} {op : Byte}
    (hi : s.inputs = .code k :: rest) (hd : decode s.cfg k = .illegalOpcode op) :
    step s = illegalOperation op { s with inputs := rest } := by
  simp only [step, fetch, hi, hd, workOf, consume, List.tail_cons]

/-- In a serving block an illegal operation is fault entry (R64, R164 (2)). -/
theorem illegalOperation_serving {s : State} (h : s.Serving) (op : Byte) :
    illegalOperation op s = .next (faultEntry op .illegalOperation (.op op) s) :=
  whenServing_serving h _

/-- Settles O4: the opcode byte alone makes the decoder reject the request, and what follows is fault entry. -/
theorem unassignedOpcodeIsIllegal : Obligations.UnassignedOpcodeIsIllegal := by
  intro s op operands rest hop hs hi
  have hd : decode s.cfg (.request ⟨op, operands⟩) = .illegalOpcode op := decodeRequest_unassigned hop
  have hs' : State.Serving { s with inputs := rest } := hs
  rw [step_illegalOpcode hi hd, illegalOperation_serving hs', faultEntry_eq]
  rfl

end Sys2Proof.Machine
end

section
/-! SUPPORT. The raw transport operations (41_bitbus.md R82 to R88): the proofs of the BitBus family. -/

namespace Sys2Proof.Machine

/-! ## The strobe check of a serving block -/

section
variable (op : Byte) (k : Host.Outcome State Fault Refusal) {s : State}

theorem whenServing_requireIdle_idle (h : s.Idle) : whenServing s (requireIdle op s k) = k := by
  rw [whenServing_serving h.1, requireIdle_idle h.2]

theorem whenServing_requireIdle_open (h : s.InWindow) :
    whenServing s (requireIdle op s k) = .next (faultEntry op .txnOpen .empty s) := by
  rw [whenServing_serving h.1, requireIdle_open h.2, raise]

theorem whenServing_requireWindow_open (h : s.InWindow) : whenServing s (requireWindow op s k) = k := by
  rw [whenServing_serving h.1, requireWindow_open h.2]

/-- With the bus idle, fault entry from the check for a window only writes the record: no event (R165). -/
theorem whenServing_requireWindow_idle (h : s.Idle) :
    whenServing s (requireWindow op s k) =
      .next { s with fault := some ⟨.contractViolation, .noTxn, op, s.reqIndex, .empty⟩ } := by
  rw [whenServing_serving h.1, requireWindow_idle h.2, raise, faultEntry, releaseStrobe_idle h.2, kindOf]

end

/-- In an open window every composite operation raises `CV_TXN_OPEN`, whatever its operands (R100). -/
theorem exec_composite_open {i : Instr} {s : State} (hi : isComposite i = true) (h : s.InWindow) :
    ∃ op, opcodeOf i = some op ∧ exec i s = .next (faultEntry op .txnOpen .empty s) := by
  cases i
  case ceWrcmd | ceWrat | ceDispctl | ceReadkeys | dtSetdisp | dtClear | dtShowstr | dtShowhex | dtShowudec
      | dtShowsdec | kdGetkeys =>
    exact ⟨_, rfl, whenServing_requireIdle_open _ _ h⟩
  case bbTxnBegin | bbTxnEnd | bbSend | bbRecv | dtStr2buf | kdDecode | wireCmdWrite | wireAddr | wireDispctl
      | wireReadKeys | wireData =>
    exact absurd hi Bool.false_ne_true

/-- Fault entry releases the strobe (R165). -/
@[simp] theorem faultEntry_stb (op : Byte) (reason : Reason) (info : FaultInfo) (s : State) :
    (faultEntry op reason info s).stb = true := by
  rw [faultEntry_eq]

/-! ## Sending and receiving one byte -/

/-- Settles O18: in the window the 48 events are those of `sendByte`, and outside it the strobe check fails first. -/
theorem sendClocksOneByteOut : Obligations.SendClocksOneByteOut := by
  refine fun s b => ⟨fun h => ?_, fun h => whenServing_requireWindow_idle opSend _ h⟩
  calc exec (.bbSend b) s
    _ = .next (complete .none (sendByte b s)) := whenServing_requireWindow_open opSend _ h
    _ = _ := by rw [sendByte_eq, complete]

/-- Settles O19: the byte answered is the next eight draws, which are also the samples recorded. -/
theorem recvAnswersTheSampledByte : Obligations.RecvAnswersTheSampledByte := by
  refine fun s => ⟨fun h => ⟨drawnByte s 0, s.samples.drop 8, s.drawn + 8, ?_⟩,
    fun h => whenServing_requireWindow_idle opRecv _ h⟩
  calc exec .bbRecv s
    _ = .next (complete (.byte (receiveByte s).1) (receiveByte s).2) := whenServing_requireWindow_open opRecv _ h
    _ = _ := by rw [receiveByte_eq, complete]

/-! ## Opening and closing a window -/

/-- Driving the strobe and waiting one bit time appends those two events and leaves the rest (R86). -/
theorem wait_driveStb (l : Bit) (s : State) :
    wait .bit (driveStb l s) = { s with stb := l, trace := s.trace ++ [.stb l, .wait .bit] } := by
  simp [wait, driveStb]

/-- Settles O16: the strobe falls with the bus idle, and with a window open the check fails, as that of every composite
operation does. -/
theorem txnBeginOpensAWindow : Obligations.TxnBeginOpensAWindow := by
  refine fun s => ⟨fun h => ?_, fun h => whenServing_requireIdle_open opTxnBegin _ h, fun h i hi => ?_⟩
  · calc exec .bbTxnBegin s
      _ = .next (complete .none (wait .bit (driveStb false s))) := whenServing_requireIdle_idle opTxnBegin _ h
      _ = _ := by rw [wait_driveStb, complete]
  · obtain ⟨op, -, he⟩ := exec_composite_open hi h
    exact ⟨op, _, he, rfl, faultEntry_stb ..⟩

/-- Settles O17: the strobe rises in an open window, and with none open the check fails first. -/
theorem txnEndClosesTheWindow : Obligations.TxnEndClosesTheWindow := by
  refine fun s => ⟨fun h => ?_, fun h => whenServing_requireWindow_idle opTxnEnd _ h⟩
  calc exec .bbTxnEnd s
    _ = .next (complete .none (wait .bit (driveStb true s))) := whenServing_requireWindow_open opTxnEnd _ h
    _ = _ := by rw [wait_driveStb, complete]

end Sys2Proof.Machine
end

section
/-! SUPPORT. Command framing (42_command_encoder.md R101 to R106): the proofs of the CommandEncoder family. -/

namespace Sys2Proof.Machine

/-! ## The checks on the operands -/

/-- With the bus idle, a failed check only writes the record: fault entry emits no event (R163, R165). -/
theorem raise_idle {s : State} (h : s.stb = true) (op : Byte) (reason : Reason) (info : FaultInfo) :
    raise op reason info s = .next { s with fault := some ⟨kindOf reason, reason, op, s.reqIndex, info⟩ } := by
  rw [raise, faultEntry, releaseStrobe_idle h]

/-- Bit 0 of a byte is its parity. -/
theorem getLsbD_zero_eq (a : Byte) : a.getLsbD 0 = decide (a.toNat % 2 = 1) := by
  rw [BitVec.getLsbD, Nat.testBit_zero]

/-- A register address is in range where it lies below `2*D` (R102, R41). -/
theorem positionOk_eq (c : Config) (a : Byte) : positionOk c a = decide (a.toNat < 2 * c.digits) := by
  rw [positionOk, BitVec.toNat_ushiftRight, Nat.shiftRight_one, decide_eq_decide]
  omega

/-- An intensity that three bits hold is sent as it is (R105). -/
theorem intensityOperand_of_toNat_eq (c : Config) {x : Byte} {n : BitVec 3} (h : n.toNat = x.toNat) :
    intensityOperand c x = some n := by
  have hn : x.setWidth 3 = n := BitVec.eq_of_toNat_eq (by rw [BitVec.toNat_setWidth, ← h, Nat.mod_eq_of_lt n.isLt])
  rw [intensityOperand, if_pos (h ▸ Nat.le_of_lt_succ n.isLt), hn]

/-- Above 7, Clamp sends 7 (R105). -/
theorem intensityOperand_clamp {c : Config} {x : Byte} (h : 7 < x.toNat) (hc : c.intensityPolicy = .clamp) :
    intensityOperand c x = some 7#3 := by
  rw [intensityOperand, if_neg (Nat.not_le.mpr h), hc]

/-- Above 7, Reject answers nothing (R105). -/
theorem intensityOperand_reject {c : Config} {x : Byte} (h : 7 < x.toNat) (hr : c.intensityPolicy = .reject) :
    intensityOperand c x = none := by
  rw [intensityOperand, if_neg (Nat.not_le.mpr h), hr]

/-! ## CE.WRCMD -/

/-- Settles O20: the window is that of `sendTransaction`, and with one open the strobe check fails first. -/
theorem wrcmdSendsTheWriteMode : Obligations.WrcmdSendsTheWriteMode := by
  refine fun s => ⟨fun h => ?_, fun h => whenServing_requireIdle_open opWrcmd _ h⟩
  calc exec .ceWrcmd s
    _ = .next (complete .none (sendTransaction [s.cfg.cmdWrite] s)) := whenServing_requireIdle_idle opWrcmd _ h
    _ = _ := by rw [sendTransaction_eq, h.2]; rfl

/-! ## CE.WRAT -/

/-- With the bus idle CE.WRAT checks the parity of the address, then its position, then writes (R102, R164). -/
theorem exec_ceWrat_idle {s : State} (h : s.Idle) (addr value : Byte) :
    exec (.ceWrat addr value) s =
      if addr.toNat % 2 = 1 then raise opWrat .oddAddress (.addr addr) s
      else if addr.toNat < 2 * s.cfg.digits then .next (complete .none (writeFrame addr value s))
      else raise opWrat .position (.addr addr) s := by
  rw [exec, execCeWrat, whenServing_requireIdle_idle _ _ h, getLsbD_zero_eq, positionOk_eq]
  simp only [decide_eq_true_eq]

/-- Settles O21: each address clause is one branch of the checks; the frame is that of `writeFrame`. -/
theorem wratWritesOneRegister : Obligations.WratWritesOneRegister := by
  refine fun s addr value => ⟨fun h heven hin => ?_, fun h hodd => ?_, fun h heven hout => ?_,
    fun h => whenServing_requireIdle_open opWrat _ h⟩
  · have hnot : ¬addr.toNat % 2 = 1 := by omega
    rw [exec_ceWrat_idle h, if_neg hnot, if_pos hin, writeFrame_eq, complete, h.2]
  · rw [exec_ceWrat_idle h, if_pos hodd, raise_idle h.2]
    rfl
  · have hnot : ¬addr.toNat % 2 = 1 := by omega
    rw [exec_ceWrat_idle h, if_neg hnot, if_neg (Nat.not_lt.mpr hout), raise_idle h.2]
    rfl

/-! ## CE.DISPCTL -/

/-- With the bus idle CE.DISPCTL sends and records the intensity that `IntensityOperand` answers (R104). -/
theorem exec_ceDispctl_sends {s : State} {x : Byte} {n : BitVec 3} (h : s.Idle)
    (hn : intensityOperand s.cfg x = some n) (on : Bit) :
    exec (.ceDispctl on x) s =
      .next (complete .none { sendTransaction [ctrlByte s.cfg on n] s with active := on, intensity := n }) := by
  rw [exec, execCeDispctl, whenServing_requireIdle_idle _ _ h, hn]

/-- With the bus idle CE.DISPCTL raises `CV_INTENSITY` where `IntensityOperand` does (R105). -/
theorem exec_ceDispctl_rejects {s : State} {x : Byte} (h : s.Idle) (hn : intensityOperand s.cfg x = none) (on : Bit) :
    exec (.ceDispctl on x) s = raise opDispctl .intensity (.intensity x) s := by
  rw [exec, execCeDispctl, whenServing_requireIdle_idle _ _ h, hn]

/-- Settles O22: `IntensityOperand` answers the intensity sent, or nothing where it rejects. -/
theorem dispctlSendsAndRecordsTheControl : Obligations.DispctlSendsAndRecordsTheControl := by
  refine fun s on x => ⟨fun h n hn => ?_, fun h hx hpolicy => ?_,
    fun h => whenServing_requireIdle_open opDispctl _ h⟩
  · have hsent : intensityOperand s.cfg x = some n := by
      obtain hfits | ⟨hx, hpolicy, rfl⟩ := hn
      · exact intensityOperand_of_toNat_eq s.cfg hfits
      · exact intensityOperand_clamp hx hpolicy
    rw [exec_ceDispctl_sends h hsent, sendTransaction_eq, h.2]
    rfl
  · rw [exec_ceDispctl_rejects h (intensityOperand_reject hx hpolicy), raise_idle h.2]
    rfl

/-! ## CE.READKEYS -/

/-- Settles O23: the report answered is the next thirty-two draws, which are also the samples recorded. -/
theorem readkeysAnswersTheReport : Obligations.ReadkeysAnswersTheReport := by
  refine fun s => ⟨fun h => ⟨drawnReport s, s.samples.drop 32, s.drawn + 32, ?_⟩,
    fun h => whenServing_requireIdle_open opReadkeys _ h⟩
  calc exec .ceReadkeys s
    _ = .next (complete (.report (readKeys s).1) (readKeys s).2) := whenServing_requireIdle_idle opReadkeys _ h
    _ = _ := by rw [readKeys_eq, complete, h.2]

end Sys2Proof.Machine
end

section
/-! SUPPORT. The plane transpose and the operations that write the planes (43_display_transform.md R120 to R126): the first
proofs of the DisplayTransform family. -/

namespace Sys2Proof.Machine

/-! ## Moving one bit -/

/-- Bit `i` of `v`, cut out and moved to bit `n`, is the only bit of the result: the step that R120 and R127 share. -/
theorem movedBit_getLsbD (v : Byte) (i n k : Nat) :
    (((v >>> i) &&& 1#8) <<< n).getLsbD k = (decide (k < 8 ∧ k = n) && v.getLsbD i) := by
  rw [BitVec.getLsbD_shiftLeft, BitVec.getLsbD_and, BitVec.getLsbD_ushiftRight, BitVec.getLsbD_one]
  obtain hlt | rfl | hgt := Nat.lt_trichotomy k n
  · simp [hlt, hlt.ne]
  · simp
  · have hpos : k - n ≠ 0 := by omega
    simp [hpos, hgt.ne']

/-- A bit of an OR accumulated over a list is set where it is set at the start or by some member. -/
theorem foldl_or_getLsbD {α : Type} (f : α → Byte) (l : List α) (w : Byte) (k : Nat) :
    (l.foldl (fun w a => w ||| f a) w).getLsbD k = (w.getLsbD k || l.any fun a => (f a).getLsbD k) := by
  induction l generalizing w with
  | nil => simp
  | cons a l ih => rw [List.foldl_cons, ih, BitVec.getLsbD_or, List.any_cons, Bool.or_assoc]

/-! ## The transpose -/

/-- Every bit of a plane word: below `D`, bit `k` comes from value `D-1-k`, and a value past the end counts as 0. -/
theorem planeWord_getLsbD {d : Nat} {values : List Byte} (hd : d ≤ 8) (hlen : values.length ≤ d) (i k : Nat) :
    (planeWord d values i).getLsbD k = (decide (k < d) && (values.getD (d - 1 - k) 0#8).getLsbD i) := by
  rw [planeWord, foldl_or_getLsbD, Bool.eq_iff_iff]
  simp only [movedBit_getLsbD, BitVec.getLsbD_zero, Bool.false_or, List.any_eq_true, List.mem_range,
    Bool.and_eq_true, decide_eq_true_eq]
  constructor
  · rintro ⟨j, hj, ⟨-, rfl⟩, hbit⟩
    have hback : d - 1 - (d - j - 1) = j := by omega
    exact ⟨by omega, by rwa [hback]⟩
  · rintro ⟨hk, hbit⟩
    have hj : d - 1 - k < values.length := by
      by_contra hout
      simp [List.getElem?_eq_none (Nat.le_of_not_lt hout)] at hbit
    exact ⟨d - 1 - k, hj, ⟨by omega, by omega⟩, hbit⟩

/-- Word `i` of the transpose is plane word `i`. -/
theorem transpose_getElem? {d i : Nat} (h : i < d) (values : List Byte) :
    (transpose d values)[i]? = some (planeWord d values i) := by
  simp [transpose, h]

/-- Settles O25: each clause reads one bit of a plane word. -/
theorem transposePlacesEveryBit : Obligations.TransposePlacesEveryBit := by
  refine fun d values hd hlen => ⟨transpose_length d values, fun i hi =>
    ⟨planeWord d values i, transpose_getElem? hi values, fun j v hv => ?_, fun k hk => ?_⟩⟩
  · obtain ⟨hj, -⟩ := List.getElem?_eq_some_iff.mp hv
    have hin : d - j - 1 < d := by omega
    have hback : d - 1 - (d - j - 1) = j := by omega
    rw [planeWord_getLsbD hd hlen, hback, List.getD_eq_getElem?_getD, hv]
    simp [hin]
  · rw [planeWord_getLsbD hd hlen]
    obtain hlow | hhigh := hk
    · have hout : values.length ≤ d - 1 - k := by omega
      simp [List.getElem?_eq_none hout]
    · simp [Nat.not_lt.mpr hhigh]

/-! ## DT.SETDISP and DT.CLEAR -/

/-- With the bus idle, values that fit are shown (R121, R122). -/
theorem whenServing_setDisplay_fits {s : State} {values : List Byte} (h : s.Idle)
    (hlen : values.length ≤ s.cfg.digits) (op : Byte) :
    whenServing s (setDisplay op values s) = .next (planesShown s values) := by
  rw [setDisplay, whenServing_requireIdle_idle _ _ h, if_neg (Nat.not_lt.mpr hlen),
    complete_writePlanes _ _ (digits_pos h.1.1)]

/-- With the bus idle, more values than digits raise `CV_LEN` (R121). -/
theorem whenServing_setDisplay_long {s : State} {values : List Byte} (h : s.Idle)
    (hlen : s.cfg.digits < values.length) (op : Byte) :
    whenServing s (setDisplay op values s) =
      .next { s with fault := some ⟨.contractViolation, .len, op, s.reqIndex, .len values.length⟩ } := by
  rw [setDisplay, whenServing_requireIdle_idle _ _ h, if_pos hlen, raise_idle h.2]
  rfl

/-- Settles O27: the length decides between the two idle clauses; the strobe check stands before it. -/
theorem setdispWritesThePlanes : Obligations.SetdispWritesThePlanes :=
  fun _ _ => ⟨fun h hlen => whenServing_setDisplay_fits h hlen opSetdisp,
    fun h hlen => whenServing_setDisplay_long h hlen opSetdisp,
    fun h => whenServing_requireIdle_open opSetdisp _ h⟩

/-- With no values every plane word is 0 (R126). -/
theorem planeWord_nil (d i : Nat) : planeWord d [] i = 0#8 := rfl

theorem transpose_nil (d : Nat) : transpose d [] = List.replicate d 0#8 := by
  simp [transpose, List.eq_replicate_iff, planeWord_nil]

/-- Settles O28: DT.CLEAR shows no values, whose plane words are all 0. -/
theorem clearWritesZeroPlanes : Obligations.ClearWritesZeroPlanes := by
  refine fun s => ⟨fun h => ?_, fun h => whenServing_requireIdle_open opClear _ h⟩
  calc exec .dtClear s
    _ = .next (planesShown s []) := whenServing_setDisplay_fits h (Nat.zero_le _) opClear
    _ = _ := by rw [planesShown, transpose_nil, planeWord_nil, h.2]; rfl

end Sys2Proof.Machine
end

section
/-! SUPPORT. Building and showing the display buffer (43_display_transform.md R127 to R131): the DisplayTransform family's
proofs about text. -/

namespace Sys2Proof.Machine

/-! ## The buffer -/

/-- Every bit of a dot (R127). -/
theorem dotBitAt_getLsbD (d : Nat) (mask : Byte) (i k : Nat) :
    (dotBitAt d mask i).getLsbD k = (decide (k = 7) && mask.getLsbD (d - i - 1)) := by
  have hk : (k < 8 ∧ k = 7) ↔ k = 7 := by omega
  rw [dotBitAt, movedBit_getLsbD, decide_eq_decide.mpr hk]

/-- Settles O29: a dot reads one bit of the mask, and that bit lies below `D`. -/
theorem dotsReadTheMaskInReverse : Obligations.DotsReadTheMaskInReverse := by
  refine fun d i mask _ hi => ⟨dotBitAt_getLsbD d mask i, fun other hsame => ?_⟩
  refine BitVec.eq_of_getLsbD_eq fun k _ => ?_
  rw [dotBitAt_getLsbD, dotBitAt_getLsbD, hsame _ (by omega)]

theorem stringToBuffer_length (d : Nat) (text font : List Byte) (dots : Byte) :
    (stringToBuffer d text dots font).length = d := by
  rw [stringToBuffer, List.length_map, List.length_range]

/-- Byte `i` of the buffer is the segment byte of position `i` (R128). -/
theorem stringToBuffer_getElem? {d i : Nat} (h : i < d) (text font : List Byte) (dots : Byte) :
    (stringToBuffer d text dots font)[i]? = some (segmentAt d text dots font i) := by
  simp [stringToBuffer, h]

/-- A character that has a font entry is shown as that entry with its dot. -/
theorem segmentAt_char {d i : Nat} {text font : List Byte} {c e : Byte} (hc : text[i]? = some c)
    (he : font[c.toNat - 32]? = some e) (dots : Byte) :
    segmentAt d text dots font i = e ||| dotBitAt d dots i := by
  simp only [segmentAt, hc, List.getD_eq_getElem?_getD, he, Option.getD_some]

/-- Past the end of the text there is the dot alone. -/
theorem segmentAt_past {i : Nat} {text : List Byte} (h : text.length ≤ i) (d : Nat) (dots : Byte) (font : List Byte) :
    segmentAt d text dots font i = dotBitAt d dots i := by
  simp only [segmentAt, List.getElem?_eq_none h]

/-- Settles O30: a position holds a character with its entry, or is past the end. -/
theorem bufferHoldsFontEntriesAndDots : Obligations.BufferHoldsFontEntriesAndDots := by
  refine fun d text font dots i hi => ⟨stringToBuffer_length d text font dots, fun c e hc _ he => ?_, fun hpast => ?_⟩
  · rw [stringToBuffer_getElem? hi, segmentAt_char hc he]
  · rw [stringToBuffer_getElem? hi, segmentAt_past hpast]

/-! ## The font checks -/

/-- A character has an entry in a font of `fontLen` entries (R129). -/
abbrev HasEntry (fontLen : Nat) (c : Byte) : Prop := 32 ≤ c.toNat ∧ c.toNat - 32 < fontLen

theorem charChecks_low {n i : Nat} {c : Byte} (h : c.toNat < 32) (cs : List Byte) :
    charChecks n i (c :: cs) = some (.fontIndexLow, .char i c) := by
  rw [charChecks, if_pos h]

theorem charChecks_high {n i : Nat} {c : Byte} (hlow : 32 ≤ c.toNat) (h : n ≤ c.toNat - 32) (cs : List Byte) :
    charChecks n i (c :: cs) = some (.fontIndexHigh, .char i c) := by
  rw [charChecks, if_neg (Nat.not_lt.mpr hlow), if_pos h]

theorem charChecks_entry {n i : Nat} {c : Byte} (h : HasEntry n c) (cs : List Byte) :
    charChecks n i (c :: cs) = charChecks n (i + 1) cs := by
  rw [charChecks, if_neg (Nat.not_lt.mpr h.1), if_neg (Nat.not_le.mpr h.2)]

/-- Characters that have entries pass, and the checks go on after them. -/
theorem charChecks_append {n : Nat} {cs : List Byte} (h : ∀ c ∈ cs, HasEntry n c) (i : Nat) (ds : List Byte) :
    charChecks n i (cs ++ ds) = charChecks n (i + cs.length) ds := by
  induction cs generalizing i with
  | nil => rfl
  | cons c cs ih =>
    obtain ⟨hc, hcs⟩ := List.forall_mem_cons.mp h
    rw [List.cons_append, charChecks_entry hc, ih hcs, List.length_cons, Nat.add_right_comm, Nat.add_assoc]

/-- The index checks pass exactly when every character has an entry. -/
theorem charChecks_eq_none_iff {n i : Nat} {cs : List Byte} :
    charChecks n i cs = none ↔ ∀ c ∈ cs, HasEntry n c := by
  induction cs generalizing i with
  | nil => simp [charChecks]
  | cons c cs ih =>
    rw [List.forall_mem_cons]
    by_cases hlow : c.toNat < 32
    · have hno : ¬HasEntry n c := fun h => Nat.not_lt.mpr h.1 hlow
      simp only [charChecks_low hlow, hno, false_and, reduceCtorEq]
    · by_cases hhigh : n ≤ c.toNat - 32
      · have hno : ¬HasEntry n c := fun h => Nat.not_lt.mpr hhigh h.2
        simp only [charChecks_high (Nat.le_of_not_lt hlow) hhigh, hno, false_and, reduceCtorEq]
      · have hc : HasEntry n c := ⟨Nat.le_of_not_lt hlow, Nat.lt_of_not_le hhigh⟩
        rw [charChecks_entry hc, ih, and_iff_right hc]

theorem fontChecks_short {font : List Byte} (h : font.length < 96) (d : Nat) (text : List Byte) :
    fontChecks d text font = some (.fontShort, .fontLen font.length) := by
  rw [fontChecks, Config.fontMinLen, if_pos h]

theorem fontChecks_long {font : List Byte} (h : 96 ≤ font.length) (d : Nat) (text : List Byte) :
    fontChecks d text font = charChecks font.length 0 (text.take d) := by
  rw [fontChecks, Config.fontMinLen, if_neg (Nat.not_lt.mpr h)]

/-- The members of a prefix, by position. -/
theorem forall_mem_take_iff {α : Type} {p : α → Prop} {l : List α} {n : Nat} :
    (∀ a ∈ l.take n, p a) ↔ ∀ i a, i < n → l[i]? = some a → p a := by
  refine ⟨fun h i a hi ha => h a (List.mem_of_getElem? ((List.getElem?_take_of_lt hi).trans ha)), fun h a ha => ?_⟩
  obtain ⟨i, hi⟩ := List.mem_iff_getElem?.mp ha
  rw [List.getElem?_take] at hi
  split at hi
  case isTrue hlt => exact h i a hlt hi
  case isFalse => cases hi

/-- When the font checks pass (R129). -/
theorem fontChecks_eq_none_iff {d : Nat} {text font : List Byte} :
    fontChecks d text font = none ↔
      96 ≤ font.length ∧ ∀ i c, i < d → text[i]? = some c → HasEntry font.length c := by
  by_cases h : 96 ≤ font.length
  · rw [fontChecks_long h, charChecks_eq_none_iff, forall_mem_take_iff, and_iff_right h]
  · simp only [fontChecks_short (Nat.lt_of_not_le h), h, false_and, reduceCtorEq]

/-- Where the font is long enough and the characters before position `i` have entries, the checks start at `i`. -/
theorem fontChecks_at {d i : Nat} {text font : List Byte} {c : Byte} (hfont : 96 ≤ font.length) (hi : i < d)
    (hc : text[i]? = some c) (hpass : ∀ j e, j < i → text[j]? = some e → HasEntry font.length e) :
    ∃ rest, fontChecks d text font = charChecks font.length i (c :: rest) := by
  have hshown : (text.take d)[i]? = some c := (List.getElem?_take_of_lt hi).trans hc
  obtain ⟨hlt, rfl⟩ := List.getElem?_eq_some_iff.mp hshown
  have hsplit : text.take d = text.take i ++ (text.take d)[i] :: (text.take d).drop (i + 1) := by
    conv_lhs => rw [← List.take_append_drop i (text.take d), List.take_take, Nat.min_eq_left hi.le,
      List.drop_eq_getElem_cons hlt]
  have hlen : (text.take i).length = i := by
    rw [List.length_take] at hlt ⊢
    omega
  refine ⟨(text.take d).drop (i + 1), ?_⟩
  calc fontChecks d text font
    _ = charChecks font.length 0 (text.take d) := fontChecks_long hfont d text
    _ = charChecks font.length 0 (text.take i ++ (text.take d)[i] :: (text.take d).drop (i + 1)) := by rw [← hsplit]
    _ = _ := by rw [charChecks_append (forall_mem_take_iff.mpr hpass), hlen, Nat.zero_add]

/-! ## DT.STR2BUF and DT.SHOWSTR -/

theorem exec_dtStr2buf_passes {s : State} {text font : List Byte} (h : s.Serving)
    (hc : fontChecks s.cfg.digits text font = none) (dots : Byte) :
    exec (.dtStr2buf text dots font) s =
      .next (complete (.buffer (stringToBuffer s.cfg.digits text dots font)) (renderText text dots font s)) := by
  rw [exec, execDtStr2buf, whenServing_serving h, hc]

theorem exec_dtStr2buf_fails {s : State} {text font : List Byte} {reason : Reason} {info : FaultInfo} (h : s.Serving)
    (hc : fontChecks s.cfg.digits text font = some (reason, info)) (dots : Byte) :
    exec (.dtStr2buf text dots font) s = raise opStr2buf reason info s := by
  rw [exec, execDtStr2buf, whenServing_serving h, hc]

/-- Settles O34: the strobe is not looked at, so the font checks alone decide. -/
theorem str2bufBuildsTheBuffer : Obligations.Str2bufBuildsTheBuffer :=
  fun _ _ _ dots h => ⟨fun hc => exec_dtStr2buf_passes h hc dots, fun _ _ hc => exec_dtStr2buf_fails h hc dots⟩

/-- With the bus idle, a text whose checks pass is rendered and shown (R131). -/
theorem whenServing_showText_passes {s : State} {text font : List Byte} (h : s.Idle)
    (hc : fontChecks s.cfg.digits text font = none) (op dots : Byte) :
    whenServing s (showText op text dots font s) = .next (textShown s text dots font) := by
  have hshown := complete_writePlanes (stringToBuffer s.cfg.digits text dots font) (renderText text dots font s)
    (digits_pos h.1.1)
  rw [renderText_cfg] at hshown
  rw [showText, whenServing_requireIdle_idle _ _ h, hc, hshown]
  rfl

/-- With the bus idle, a check that fails is raised with no event (R131, R163). -/
theorem whenServing_showText_fails {s : State} {text font : List Byte} {reason : Reason} {info : FaultInfo}
    (h : s.Idle) (hc : fontChecks s.cfg.digits text font = some (reason, info)) (op dots : Byte) :
    whenServing s (showText op text dots font s) =
      .next { s with fault := some ⟨.contractViolation, reason, op, s.reqIndex, info⟩ } := by
  have hraise := raise_idle h.2 op reason info
  rw [fontChecks_kind hc] at hraise
  rw [showText, whenServing_requireIdle_idle _ _ h, hc]
  exact hraise

/-- Settles O35: the strobe check, then the font checks, then the planes. -/
theorem showstrBuildsAndShows : Obligations.ShowstrBuildsAndShows :=
  fun _ _ _ dots => ⟨fun h hc => whenServing_showText_passes h hc opShowstr dots,
    fun h _ _ hc => whenServing_showText_fails h hc opShowstr dots,
    fun h => whenServing_requireIdle_open opShowstr _ h⟩

/-- Settles O33: the checks run over the characters in order, and both operations make them before anything else. -/
theorem fontChecksNameTheFirstFailure : Obligations.FontChecksNameTheFirstFailure := by
  refine fun d text font => ⟨fontChecks_eq_none_iff, fun h => fontChecks_short h d text,
    fun i c hfont hi hc hpass => ?_, ?_⟩
  · obtain ⟨rest, hchecks⟩ := fontChecks_at hfont hi hc hpass
    rw [hchecks]
    exact ⟨fun hlow => charChecks_low hlow rest, fun hlow hhigh => charChecks_high hlow hhigh rest⟩
  · rintro s dots i h rfl hi hfail
    obtain ⟨⟨reason, info⟩, hc⟩ := Option.ne_none_iff_exists'.mp hfail
    obtain rfl | rfl := hi
    · exact ⟨_, (exec_dtStr2buf_fails h.1 hc dots).trans (raise_idle h.2 ..), Option.some_ne_none _, rfl, rfl⟩
    · exact ⟨_, whenServing_showText_fails h hc opShowstr dots, Option.some_ne_none _, rfl, rfl⟩

end Sys2Proof.Machine
end

section
/-! SUPPORT. Rendering and showing numbers (43_display_transform.md R134 to R139): the DisplayTransform family's proofs about
numbers. -/

namespace Sys2Proof.Machine

/-! ## Digit characters -/

theorem charValue_digitChar : ∀ d < 16, charValue (digitChar d) = d := by decide

theorem digitChar_eq_zero_iff : ∀ d < 16, digitChar d = 48#8 ↔ d = 0 := by decide

/-- The characters of base 10 and base 16 are those the spec lists (R134, R135). -/
theorem isDigitChar_digitChar {base : Nat} (hb : base = 10 ∨ base = 16) {d : Nat} (hd : d < base) :
    isDigitChar base (digitChar d) = true := by
  obtain rfl | rfl := hb
  · exact (by decide : ∀ d < 10, isDigitChar 10 (digitChar d) = true) d hd
  · exact (by decide : ∀ d < 16, isDigitChar 16 (digitChar d) = true) d hd

/-! ## The digits of a number, in terms of `Nat.digits` -/

/-- With enough fuel the digits of a positive number are those of `Nat.digits`, most significant first. -/
theorem digitsOnto_eq {base : Nat} (hb : 1 < base) (fuel : Nat) {n : Nat} (hn : n ≠ 0) (hfuel : n < base ^ fuel)
    (acc : List Byte) :
    digitsOnto base fuel n acc = ((Nat.digits base n).map digitChar).reverse ++ acc := by
  induction fuel generalizing n acc with
  | zero => exact absurd (Nat.lt_one_iff.mp hfuel) hn
  | succ fuel ih =>
    rw [digitsOnto, Nat.digits_def' hb (Nat.pos_of_ne_zero hn)]
    by_cases hq : n / base = 0
    · simp [hq]
    · have hsmall : n / base < base ^ fuel := Nat.div_lt_of_lt_mul (by rwa [← Nat.pow_succ'])
      simp [hq, ih hq hsmall]

/-- "0" for zero. -/
theorem digits_zero (base : Nat) : digits base 0 = [48#8] := by
  simp [digits, digitsOnto, digitChar]

theorem digits_eq {base n : Nat} (hb : 1 < base) (hn : n ≠ 0) (hfit : n < base ^ 10) :
    digits base n = ((Nat.digits base n).map digitChar).reverse := by
  rw [digits, digitsOnto_eq hb 10 hn hfit, List.append_nil]

/-- Reading one more digit character. -/
theorem spelled_concat (base : Nat) (ds : List Byte) (c : Byte) :
    spelled base (ds ++ [c]) = base * spelled base ds + charValue c := by
  rw [spelled, List.foldl_append, spelled]
  rfl

/-- Digit characters, most significant first, spell the number that their values make. -/
theorem spelled_reverse_map (base : Nat) {ds : List Nat} (h : ∀ d ∈ ds, d < 16) :
    spelled base (ds.map digitChar).reverse = Nat.ofDigits base ds := by
  induction ds with
  | nil => rfl
  | cons d ds ih =>
    obtain ⟨hd, hds⟩ := List.forall_mem_cons.mp h
    rw [List.map_cons, List.reverse_cons, spelled_concat, ih hds, charValue_digitChar d hd, Nat.ofDigits_cons,
      Nat.add_comm]

/-- `ds` are the digits of `n` in `base`, without a leading zero unless `n` is 0, which is one digit (R134, R135). -/
structure IsRendering (base n : Nat) (ds : List Byte) : Prop where
  spells : spelled base ds = n
  digitChars : ∀ c ∈ ds, isDigitChar base c = true
  head_zero_iff : ds.head? = some 48#8 ↔ n = 0
  zero : n = 0 → ds = [48#8]

/-- Every magnitude of at most ten digits is rendered, in either base. -/
theorem isRendering_digits {base n : Nat} (hb : base = 10 ∨ base = 16) (hfit : n < base ^ 10) :
    IsRendering base n (digits base n) := by
  obtain rfl | hn := eq_or_ne n 0
  · rw [digits_zero]
    refine ⟨rfl, fun c hc => ?_, by simp, fun _ => rfl⟩
    rw [List.mem_singleton.mp hc]
    exact isDigitChar_digitChar hb (d := 0) (by omega)
  · have hone : 1 < base := by omega
    have hlt : ∀ d ∈ Nat.digits base n, d < base := fun d hd => Nat.digits_lt_base hone hd
    rw [digits_eq hone hn hfit]
    refine ⟨?_, fun c hc => ?_, iff_of_false (fun hhead => ?_) hn, fun h => absurd h hn⟩
    · rw [spelled_reverse_map base fun d hd => (hlt d hd).trans_le (by omega), Nat.ofDigits_digits]
    · obtain ⟨d, hd, rfl⟩ := List.mem_map.mp (List.mem_reverse.mp hc)
      exact isDigitChar_digitChar hb (hlt d hd)
    · have hne : Nat.digits base n ≠ [] := Nat.digits_ne_nil_iff_ne_zero.mpr hn
      rw [List.head?_reverse, List.getLast?_map, List.getLast?_eq_some_getLast hne, Option.map_some,
        Option.some_inj, digitChar_eq_zero_iff _ ((hlt _ (List.getLast_mem hne)).trans_le (by omega))] at hhead
      exact Nat.getLast_digit_ne_zero base hn hhead

/-- A number below `base ^ k` has at most `k` digits. -/
theorem digits_length_le {base n k : Nat} (hb : 1 < base) (hk : 1 ≤ k) (hk10 : k ≤ 10) (hn : n < base ^ k) :
    (digits base n).length ≤ k := by
  obtain rfl | hne := eq_or_ne n 0
  · rwa [digits_zero, List.length_singleton]
  · have hfit : n < base ^ 10 := hn.trans_le (Nat.pow_le_pow_right hb.le hk10)
    rw [digits_eq hb hne hfit, List.length_reverse, List.length_map]
    exact (Nat.digits_length_le_iff hb n).mpr hn

/-! ## The three renderings -/

theorem padZeros_false (width used : Nat) : padZeros false width used = [] := rfl

theorem padZeros_true (width used : Nat) : padZeros true width used = List.replicate (width - used) 48#8 := rfl

/-- A word is 0 exactly when its value is. -/
theorem toNat_eq_zero_iff (n : Word32) : n.toNat = 0 ↔ n = 0#32 := by
  rw [← BitVec.toNat_inj, BitVec.toNat_ofNat, Nat.zero_mod]

/-- Settles O36: eight base-16 digits hold every word. -/
theorem hexRenderingSpellsTheNumber : Obligations.HexRenderingSpellsTheNumber := by
  intro width n
  obtain ⟨hspell, hchars, hhead, hzero⟩ := isRendering_digits (n := n.toNat) (.inr rfl) (by omega)
  rw [toNat_eq_zero_iff] at hhead hzero
  exact ⟨hspell, hchars, digits_length_le (by decide) (by decide) (by decide) (by omega), hhead, hzero, rfl⟩

/-- Settles O37: ten base-10 digits hold every word. -/
theorem unsignedRenderingSpellsTheNumber : Obligations.UnsignedRenderingSpellsTheNumber := by
  intro width n
  obtain ⟨hspell, hchars, hhead, hzero⟩ := isRendering_digits (n := n.toNat) (.inl rfl) (by omega)
  rw [toNat_eq_zero_iff] at hhead hzero
  exact ⟨hspell, hchars, digits_length_le (by decide) (by decide) (by decide) (by omega), hhead, hzero, rfl⟩

/-- The magnitude of every word, that of `-2^31` among them, has at most ten digits (R136). -/
theorem toInt_natAbs_lt (n : Word32) : n.toInt.natAbs < 10 ^ 10 := by
  have hlow := BitVec.le_toInt n
  have hhigh := BitVec.toInt_lt (x := n)
  omega

theorem toInt_natAbs_eq_zero_iff (n : Word32) : n.toInt.natAbs = 0 ↔ n = 0#32 := by
  rw [Int.natAbs_eq_zero, ← BitVec.toInt_inj, BitVec.toInt_zero]

/-- Settles O38: the digits are those of the magnitude, and the sign counts in the pad width. -/
theorem signedRenderingSpellsTheNumber : Obligations.SignedRenderingSpellsTheNumber := by
  intro width n
  obtain ⟨hspell, hchars, hhead, hzero⟩ := isRendering_digits (.inl rfl) (toInt_natAbs_lt n)
  rw [toInt_natAbs_eq_zero_iff] at hhead hzero
  refine ⟨_, digits 10 n.toInt.natAbs, rfl, hspell, hchars,
    digits_length_le (by decide) (by decide) (by decide) (toInt_natAbs_lt n), hhead, hzero, ?_, ?_⟩
  · rw [fmtSDec, padZeros_false, List.append_nil]
  · rw [fmtSDec, padZeros_true, Nat.sub_sub]

/-! ## A rendered number passes the font checks -/

/-- The characters of the renderings have entries in every font that is long enough. -/
abbrev Printable (c : Byte) : Prop := HasEntry 96 c

theorem printable_of_isDigitChar {base : Nat} {c : Byte} (h : isDigitChar base c = true) : Printable c := by
  simp only [isDigitChar, Bool.or_eq_true, Bool.and_eq_true, decide_eq_true_eq] at h
  omega

theorem printable_of_mem_digits {base n : Nat} (hb : base = 10 ∨ base = 16) (hfit : n < base ^ 10) :
    ∀ c ∈ digits base n, Printable c := fun c hc =>
  printable_of_isDigitChar ((isRendering_digits hb hfit).digitChars c hc)

theorem printable_of_mem_padZeros (lz : Bit) (width used : Nat) : ∀ c ∈ padZeros lz width used, Printable c := by
  intro c hc
  cases lz with
  | false => cases hc
  | true =>
    obtain rfl := List.eq_of_mem_replicate hc
    decide

theorem printable_of_mem_fmtHex (width : Nat) (n : Word32) (lz : Bit) : ∀ c ∈ fmtHex width n lz, Printable c :=
  List.forall_mem_append.mpr ⟨printable_of_mem_padZeros lz _ _, printable_of_mem_digits (.inr rfl) (by omega)⟩

theorem printable_of_mem_fmtUDec (width : Nat) (n : Word32) (lz : Bit) : ∀ c ∈ fmtUDec width n lz, Printable c :=
  List.forall_mem_append.mpr ⟨printable_of_mem_padZeros lz _ _, printable_of_mem_digits (.inl rfl) (by omega)⟩

theorem printable_of_mem_fmtSDec (width : Nat) (n : Word32) (lz : Bit) : ∀ c ∈ fmtSDec width n lz, Printable c := by
  refine List.forall_mem_append.mpr ⟨List.forall_mem_append.mpr ⟨?_, printable_of_mem_padZeros lz _ _⟩,
    printable_of_mem_digits (.inl rfl) (toInt_natAbs_lt n)⟩
  split
  · decide
  · exact nofun

/-- A text of such characters passes the checks of a font of 96 entries or more (R137). -/
theorem fontChecks_printable {text font : List Byte} (hfont : 96 ≤ font.length) (htext : ∀ c ∈ text, Printable c)
    (d : Nat) : fontChecks d text font = none := by
  refine fontChecks_eq_none_iff.mpr ⟨hfont, fun i c _ hc => ?_⟩
  obtain ⟨hlow, hhigh⟩ := htext c (List.mem_of_getElem? hc)
  exact ⟨hlow, hhigh.trans_le hfont⟩

/-! ## DT.SHOWHEX, DT.SHOWUDEC and DT.SHOWSDEC -/

/-- Showing a text of printable characters: only a short font and the strobe stop it (R137 to R139). -/
theorem whenServing_showText_printable {text : List Byte} (htext : ∀ c ∈ text, Printable c) (s : State) (op dots : Byte)
    (font : List Byte) :
    (s.Idle → 96 ≤ font.length → whenServing s (showText op text dots font s) = .next (textShown s text dots font)) ∧
    (s.Idle → font.length < 96 → whenServing s (showText op text dots font s) =
      .next { s with fault := some ⟨.contractViolation, .fontShort, op, s.reqIndex, .fontLen font.length⟩ }) ∧
    (s.InWindow → whenServing s (showText op text dots font s) = .next (faultEntry op .txnOpen .empty s)) :=
  ⟨fun h hfont => whenServing_showText_passes h (fontChecks_printable hfont htext _) op dots,
    fun h hfont => whenServing_showText_fails h (fontChecks_short hfont _ text) op dots,
    fun h => whenServing_requireIdle_open op _ h⟩

/-- Settles O39: every character of the hexadecimal rendering is printable. -/
theorem showhexShowsTheRendering : Obligations.ShowhexShowsTheRendering := fun s n dots lz font =>
  whenServing_showText_printable (printable_of_mem_fmtHex s.cfg.fmtPadWidth n lz) s opShowhex dots font

/-- Settles O40: every character of the unsigned rendering is printable. -/
theorem showudecShowsTheRendering : Obligations.ShowudecShowsTheRendering := fun s n dots lz font =>
  whenServing_showText_printable (printable_of_mem_fmtUDec s.cfg.fmtPadWidth n lz) s opShowudec dots font

/-- Settles O41: every character of the signed rendering is printable, the sign among them. -/
theorem showsdecShowsTheRendering : Obligations.ShowsdecShowsTheRendering := fun s n dots lz font =>
  whenServing_showText_printable (printable_of_mem_fmtSDec s.cfg.fmtPadWidth n lz) s opShowsdec dots font

end Sys2Proof.Machine
end

section
/-! SUPPORT. The key decoder and the two operations that answer its mask (44_key_scan_decoder.md R150 to R155): the proofs of
the KeyScanDecoder family. -/

namespace Sys2Proof.Machine

/-! ## The remapping -/

/-- What one source bit `l` adds to a remapped byte: itself at the output bit of its table entry, or nothing (R150). -/
def bitAtDest (l : Bit) : Option (Fin 8) → Byte
  | some d => (BitVec.ofBool l).setWidth 8 <<< d.val
  | none => 0#8

theorem bitAtDest_some_getLsbD (l : Bit) (d : Fin 8) (j : Nat) :
    (bitAtDest l (some d)).getLsbD j = (decide (j = d.val) && l) := by
  rw [bitAtDest, BitVec.getLsbD_shiftLeft, BitVec.getLsbD_setWidth, BitVec.getLsbD_ofBool]
  obtain hlt | heq | hgt := Nat.lt_trichotomy j d.val
  · simp [hlt, hlt.ne]
  · simp [heq]
  · have hpos : j - d.val ≠ 0 := by omega
    simp [hpos, hgt.ne']

/-- A source bit sets output bit `j` exactly when it is set and its table entry is `j`. -/
theorem bitAtDest_getLsbD_iff (l : Bit) (e : Option (Fin 8)) {j : Nat} (hj : j < 8) :
    (bitAtDest l e).getLsbD j = true ↔ l = true ∧ e = some ⟨j, hj⟩ := by
  cases e with
  | none => simp [bitAtDest]
  | some d =>
    rw [bitAtDest_some_getLsbD l d j, Bool.and_eq_true, decide_eq_true_eq, and_comm, Option.some_inj, Fin.ext_iff,
      eq_comm (a := j)]

/-- A remapped byte is the OR of what its source bits add. -/
theorem remap_eq (dest : KeyRemap) (r : Byte) :
    remap dest r = (List.finRange 8).foldl (fun w (s : Fin 8) => w ||| bitAtDest (r.getLsbD s) dest[s]) 0#8 := by
  rw [remap]
  congr
  funext w s
  cases dest[s] with
  | none => rw [bitAtDest, BitVec.or_zero]
  | some d => rfl

/-- Settles O42: a bit of an OR is set by one of its members, and each member is one source bit. -/
theorem remapMovesEachBit : Obligations.RemapMovesEachBit := by
  intro dest r j hj
  rw [remap_eq, foldl_or_getLsbD, BitVec.getLsbD_zero, Bool.false_or, List.any_eq_true]
  simp only [List.mem_finRange, true_and, bitAtDest_getLsbD_iff _ _ hj]

/-! ## The mask of an empty report -/

/-- No table moves a bit that is not set. -/
theorem remap_zero (dest : KeyRemap) : remap dest 0#8 = 0#8 := by
  refine BitVec.eq_of_getLsbD_eq fun j hj => ?_
  rw [BitVec.getLsbD_zero, Bool.eq_false_iff, Ne, remapMovesEachBit dest 0#8 j hj]
  rintro ⟨s, hs, -⟩
  exact absurd hs (by simp)

/-- An all-zero report gives 0 under every table (R155). -/
theorem decodeKeys_zero (dest : KeyRemap) : decodeKeys dest #v[0#8, 0#8, 0#8, 0#8] = 0#16 := by
  calc decodeKeys dest #v[0#8, 0#8, 0#8, 0#8]
    _ = foldByte (remap dest 0#8) 0 ||| foldByte (remap dest 0#8) 1 |||
          foldByte (remap dest 0#8) 2 ||| foldByte (remap dest 0#8) 3 := rfl
    _ = 0#16 := by rw [remap_zero]; decide

/-! ## KD.DECODE and KD.GETKEYS -/

/-- KD.DECODE looks at no line: in every serving state it completes with the mask (R153). -/
theorem exec_kdDecode_serving {s : State} (h : s.Serving) (rep : KeyReport) :
    exec (.kdDecode rep) s = .next (complete (.mask (decodeKeys s.cfg.keyRemap rep)) s) :=
  whenServing_serving h _

/-- Settles O44: the mask written out is that of `decodeKeys`, and the empty report's is 0. -/
theorem decodeAnswersTheMask : Obligations.DecodeAnswersTheMask :=
  ⟨fun _ rep h => exec_kdDecode_serving h rep, fun s h =>
    ⟨_, exec_kdDecode_serving h _, congrArg Result.mask (decodeKeys_zero s.cfg.keyRemap)⟩⟩

/-- Settles O45: the window is that of `readKeys`, and the mask is that of the report it draws. -/
theorem getkeysAnswersTheDecodedMask : Obligations.GetkeysAnswersTheDecodedMask := by
  refine fun s => ⟨fun h => ⟨drawnReport s, s.samples.drop 32, s.drawn + 32, ?_⟩,
    fun h => whenServing_requireIdle_open opGetkeys _ h⟩
  calc exec .kdGetkeys s
    _ = .next (complete (.mask (decodeKeys s.cfg.keyRemap (readKeys s).1)) (readKeys s).2) :=
      whenServing_requireIdle_idle opGetkeys _ h
    _ = _ := by rw [readKeys_eq, complete, h.2]

end Sys2Proof.Machine
end

section
/-! SUPPORT. Fault entry, early and precise faults, and the halted block (60_exceptions.md R163, R165, R166): the proofs of
the exceptions family. -/

namespace Sys2Proof.Machine

/-! ## Fault entry -/

/-- The first reason alone is of the first kind (R161). -/
theorem kindOf_eq (reason : Reason) :
    kindOf reason = if reason = .illegalOperation then .illegalOperation else .contractViolation := by
  cases reason <;> rfl

/-- Settles O10: fault entry as one record update, with the kind that belongs to the reason. -/
theorem faultEntryEffect : Obligations.FaultEntryEffect := by
  intro op reason info s
  rw [faultEntry_eq, kindOf_eq]

/-! ## Faults of instructions -/

/-- Settles O11: from a state without a fault an effect that runs leaves none, so the fault is that of a failed check, and
a failed check is fault entry with the instruction's own opcode. -/
theorem faultsAreEarlyAndPrecise : Obligations.FaultsAreEarlyAndPrecise := by
  intro i s t hf h ht
  rcases exec_unfaulted hf h with ⟨op, hop, reason, info, hkind, rfl⟩ | hperf
  · exact ⟨⟨kindOf reason, reason, op, s.reqIndex, info⟩, op, rfl, hop, rfl, rfl, hkind, faultEntry_eq op reason info s⟩
  · obtain ⟨hkept, -⟩ := performs_completes hperf
    exact absurd (hkept.trans hf) ht

/-! ## The halted block -/

/-- A halted block answers every instruction with the state it is in (R164 (1), R166). -/
theorem exec_halted_eq {s : State} (hv : s.cfg.valid = true) (hf : s.fault ≠ none) (i : Instr) :
    exec i s = .next s := by
  cases i
  case wireAddr a =>
    have hserving : ¬(s.cfg.valid && !halted s && (a.getLsbD 0 || !positionOk s.cfg a)) = true := by
      simp [hf]
    exact (if_neg hserving).trans (whenServing_halted hv hf _)
  all_goals exact whenServing_halted hv hf _

/-- While a fault is recorded a step that is no reset at most lets its input pass (R166, log 11). -/
theorem step_halted {s t : State} (hf : s.fault ≠ none) (h : step s = .next t) :
    (∃ inputs, t = { s with inputs := inputs }) ∨ ∃ c rest, s.inputs = .reset c :: rest := by
  rcases step_next h with ⟨-, -, rfl⟩ | ⟨c, rest, hi, -⟩ | ⟨-, rest, i, -, -, hexec⟩ |
    ⟨-, rest, op, -, -, -, ⟨-, rfl⟩ | ⟨hn, -⟩⟩ | ⟨-, rest, op, -, -, -, -, rfl⟩
  · exact .inl ⟨t.inputs, rfl⟩ -- nothing offered
  · exact .inr ⟨c, rest, hi⟩
  · exact .inl ⟨rest, exec_halted hf hexec⟩
  · exact .inl ⟨rest, rfl⟩ -- an opcode byte outside R62
  · exact absurd hn hf
  · exact .inl ⟨rest, rfl⟩ -- operands of other types

/-- Settles O13: a recorded fault makes every instruction the identity and every step at most the passing of an input, and
fault entry itself neither counts nor answers. -/
theorem haltedBlockTakesNoRequest : Obligations.HaltedBlockTakesNoRequest := by
  refine ⟨fun s r hv hr => ?_, fun op reason info s => ?_⟩
  · have hf : s.fault ≠ none := by simp [hr]
    exact ⟨exec_halted_eq hv hf, fun t => step_halted hf⟩
  · exact ⟨faultEntry_reqIndex op reason info s, faultEntry_result op reason info s, faultEntry_ne_none op reason info s⟩

end Sys2Proof.Machine
end

section
/-! SUPPORT. What an instruction does where its checks pass, as one function of the state, read field by field (10_state.md;
60_exceptions.md R165): the frame of every instruction and the invariant of every step. -/

namespace Sys2Proof.Machine

/-! ## The effect as a function -/

/-- The events an instruction adds to the trace where its checks pass (R29). -/
def eventsOf (s : State) : Instr → List Event
  | .bbTxnBegin => [.stb false, .wait .bit]
  | .bbTxnEnd => [.stb true, .wait .bit]
  | .bbSend b => sendEvents b
  | .bbRecv => recvEvents (drawnByte s 0)
  | .ceWrcmd => sendWindowEvents [s.cfg.cmdWrite]
  | .ceWrat a v => writeEvents s.cfg a v
  | .ceDispctl on x => sendWindowEvents [ctrlByte s.cfg on ((intensityOperand s.cfg x).getD 0#3)]
  | .ceReadkeys | .kdGetkeys => readKeysEvents s.cfg (drawnReport s)
  | .dtSetdisp values => shown values
  | .dtClear => shown []
  | .dtShowstr text dots font => shown (stringToBuffer s.cfg.digits text dots font)
  | .dtShowhex n dots lz font => shown (stringToBuffer s.cfg.digits (fmtHex s.cfg.fmtPadWidth n lz) dots font)
  | .dtShowudec n dots lz font => shown (stringToBuffer s.cfg.digits (fmtUDec s.cfg.fmtPadWidth n lz) dots font)
  | .dtShowsdec n dots lz font => shown (stringToBuffer s.cfg.digits (fmtSDec s.cfg.fmtPadWidth n lz) dots font)
  | .dtStr2buf _ _ _ | .kdDecode _ => []
  | .wireCmdWrite => sendEvents s.cfg.cmdWrite
  | .wireAddr a => sendEvents (addrByte s.cfg a)
  | .wireDispctl f n => sendEvents (ctrlByte s.cfg f n)
  | .wireReadKeys => sendEvents s.cfg.cmdReadKeys
  | .wireData d => sendEvents d
where
  /-- The events of showing some values. -/
  shown (values : List Byte) : List Event := planeEvents s.cfg 0 (transpose s.cfg.digits values)

/-- The state an instruction answers where its checks pass; an intensity that is rejected passes none. -/
def performed (s : State) : Instr → State
  | .bbTxnBegin => complete .none (wait .bit (driveStb false s))
  | .bbTxnEnd => complete .none (wait .bit (driveStb true s))
  | .bbSend b => complete .none (byteSent s b)
  | .bbRecv => complete (.byte (drawnByte s 0))
      { s with clk := true, dioDir := .output, samples := s.samples.drop 8, drawn := s.drawn + 8,
               trace := s.trace ++ recvEvents (drawnByte s 0) }
  | .ceWrcmd => complete .none (windowSent s s.cfg.cmdWrite)
  | .ceWrat a v => complete .none
      { s with stb := true, dioOut := v.getLsbD 7, clk := true, trace := s.trace ++ writeEvents s.cfg a v }
  | .ceDispctl on x => complete .none
      { windowSent s (ctrlByte s.cfg on ((intensityOperand s.cfg x).getD 0#3)) with
        active := on, intensity := (intensityOperand s.cfg x).getD 0#3 }
  | .ceReadkeys => complete (.report (drawnReport s)) (keysRead s)
  | .dtSetdisp values => planesShown s values
  | .dtClear => planesShown s []
  | .dtStr2buf text dots font =>
      complete (.buffer (stringToBuffer s.cfg.digits text dots font)) (renderText text dots font s)
  | .dtShowstr text dots font => textShown s text dots font
  | .dtShowhex n dots lz font => textShown s (fmtHex s.cfg.fmtPadWidth n lz) dots font
  | .dtShowudec n dots lz font => textShown s (fmtUDec s.cfg.fmtPadWidth n lz) dots font
  | .dtShowsdec n dots lz font => textShown s (fmtSDec s.cfg.fmtPadWidth n lz) dots font
  | .kdDecode rep => complete (.mask (decodeKeys s.cfg.keyRemap rep)) s
  | .kdGetkeys => complete (.mask (decodeKeys s.cfg.keyRemap (drawnReport s))) (keysRead s)
  | .wireCmdWrite => byteSent s s.cfg.cmdWrite
  | .wireAddr a => byteSent s (addrByte s.cfg a)
  | .wireDispctl f n => byteSent s (ctrlByte s.cfg f n)
  | .wireReadKeys => byteSent s s.cfg.cmdReadKeys
  | .wireData d => byteSent s d

/-- The state of an instruction that performs is a function of the state before it. -/
theorem performs_eq {i : Instr} {s t : State} (h : Performs s t i) : t = performed s i := by
  cases i
  case bbTxnBegin | bbTxnEnd | bbSend | bbRecv | ceWrcmd | ceReadkeys | dtClear | dtStr2buf | kdGetkeys
      | wireCmdWrite | wireDispctl | wireReadKeys | wireData =>
    obtain ⟨-, ht⟩ := h
    exact ht
  case dtSetdisp | dtShowstr | dtShowhex | dtShowudec | dtShowsdec =>
    obtain ⟨-, -, ht⟩ := h
    exact ht
  case ceWrat | wireAddr =>
    obtain ⟨-, -, -, ht⟩ := h
    exact ht
  case kdDecode => exact h
  case ceDispctl =>
    obtain ⟨-, n, hn, rfl⟩ := h
    rw [performed, hn, Option.getD_some]

/-! ## What the effect does to each field -/

section
variable (s : State) (i : Instr)

@[simp] theorem performed_cfg : (performed s i).cfg = s.cfg := by cases i <;> rfl

@[simp] theorem performed_inputs : (performed s i).inputs = s.inputs := by cases i <;> rfl

@[simp] theorem performed_fault : (performed s i).fault = s.fault := by cases i <;> rfl

@[simp] theorem performed_trace : (performed s i).trace = s.trace ++ eventsOf s i := by
  cases i
  case dtStr2buf | kdDecode => exact (List.append_nil _).symm
  case bbTxnBegin | bbTxnEnd => exact List.append_assoc _ [_] [_]
  all_goals rfl

@[simp] theorem performed_clk : (performed s i).clk = (sendsByte i || takesSamples i || s.clk) := by cases i <;> rfl

@[simp] theorem performed_dioDir : (performed s i).dioDir = if takesSamples i then .output else s.dioDir := by
  cases i <;> rfl

theorem performed_control (h : writesControl i = false) :
    (performed s i).active = s.active ∧ (performed s i).intensity = s.intensity := by
  cases i <;> cases h <;> exact ⟨rfl, rfl⟩

theorem performed_buf (h : writesBuf i = false) : (performed s i).buf = s.buf := by
  cases i <;> cases h <;> rfl

theorem performed_dioOut (h : sendsByte i = false) : (performed s i).dioOut = s.dioOut := by
  cases i <;> cases h <;> rfl

theorem performed_environment (h : takesSamples i = false) :
    (performed s i).samples = s.samples ∧ (performed s i).drawn = s.drawn := by
  cases i <;> cases h <;> exact ⟨rfl, rfl⟩

theorem performed_uncounted (h : i.isRequest = false) :
    (performed s i).result = s.result ∧ (performed s i).reqIndex = s.reqIndex := by
  cases i <;> cases h <;> exact ⟨rfl, rfl⟩

end

/-! ## How an instruction uses the bus -/

/-- The byte an instruction adds to the host's open window (R82, R84; log 6 for the wire bytes). -/
def itemOf (s : State) : Instr → Option Item
  | .bbSend b => some (.tx b)
  | .bbRecv => some (.rx (drawnByte s 0))
  | .wireCmdWrite => some (.tx s.cfg.cmdWrite)
  | .wireAddr a => some (.tx (addrByte s.cfg a))
  | .wireDispctl f n => some (.tx (ctrlByte s.cfg f n))
  | .wireReadKeys => some (.tx s.cfg.cmdReadKeys)
  | .wireData d => some (.tx d)
  | _ => none

/-- The five ways an instruction that performs uses the bus: whole windows of its own, one byte in the host's window,
opening that window, closing it, or not at all. Where there is more than one row of a way, it says what the strobe does and
what the scan of R90 makes of the events. -/
inductive BusUse (s : State) (i : Instr) : Prop
  | windows (composite : isComposite i = true) (adds : itemOf s i = none) (before : s.stb = true)
      (after : (performed s i).stb = true)
      (scan : ∀ done, scanFrom ⟨done, .between⟩ (eventsOf s i) = some ⟨done ++ framesPut s i, .between⟩)
  | oneByte (item : Item) (adds : itemOf s i = some item) (raw : isComposite i = false) (before : s.stb = false)
      (after : (performed s i).stb = false)
      (scan : ∀ done items, scanFrom ⟨done, .window items⟩ (eventsOf s i) = some ⟨done, .window (items ++ [item])⟩)
  | opens (begins : i = .bbTxnBegin) (before : s.stb = true)
  | closes (ends : i = .bbTxnEnd) (before : s.stb = false)
  | quiet (raw : isComposite i = false) (adds : itemOf s i = none) (after : (performed s i).stb = s.stb)
      (silent : eventsOf s i = [])

theorem performs_busUse {i : Instr} {s t : State} (h : Performs s t i) : BusUse s i := by
  cases i
  case bbTxnBegin => exact .opens rfl h.1
  case bbTxnEnd => exact .closes rfl h.1
  case dtStr2buf | kdDecode => exact .quiet rfl rfl rfl rfl
  case bbRecv => exact .oneByte _ rfl rfl h.1 h.1 fun done items => scan_recvEvents done items _
  case bbSend | wireCmdWrite | wireAddr | wireDispctl | wireReadKeys | wireData =>
    exact .oneByte _ rfl rfl h.1 h.1 fun done items => scan_sendEvents done items _
  case ceWrcmd => exact .windows rfl rfl h.1 rfl fun done => scan_sendWindowEvents done _
  case ceWrat => exact .windows rfl rfl h.1 rfl fun done => scan_writeEvents done _ _ _
  case ceReadkeys | kdGetkeys => exact .windows rfl rfl h.1 rfl fun done => scan_readKeysEvents done _ _
  case dtSetdisp | dtShowstr | dtShowhex | dtShowudec | dtShowsdec =>
    exact .windows rfl rfl h.1 rfl fun done => scan_planeEvents done _ _ _
  case dtClear =>
    refine .windows rfl rfl h.1 rfl fun done => ?_
    rw [eventsOf, eventsOf.shown, scan_planeEvents, transpose_nil, framesPut]
  case ceDispctl =>
    obtain ⟨hs, n, hn, -⟩ := h
    refine .windows rfl rfl hs rfl fun done => ?_
    rw [eventsOf, framesPut, hn, scan_sendWindowEvents, Option.getD_some]

/-- Outside the two strobe operations an instruction that performs leaves the strobe where it found it. -/
theorem performs_stb {i : Instr} {s t : State} (h : Performs s t i) (hbegin : i ≠ .bbTxnBegin) (hend : i ≠ .bbTxnEnd) :
    (performed s i).stb = s.stb := by
  cases performs_busUse h with
  | windows _ _ before after => rw [before, after]
  | oneByte _ _ _ before after => rw [before, after]
  | opens begins => exact absurd begins hbegin
  | closes ends => exact absurd ends hend
  | quiet _ _ after => exact after

/-! ## The frame of every instruction -/

/-- BB.RECV alone takes samples and sends nothing. -/
theorem takesSamples_of_silent {i : Instr} (hsends : sendsByte i = false) (hrecv : i ≠ .bbRecv) :
    takesSamples i = false := by
  cases i
  case bbRecv => exact absurd rfl hrecv
  all_goals cases hsends <;> rfl

/-- Settles O49: a halted block changes nothing, fault entry its own three fields, and an effect those of its fields. -/
theorem frameOfEveryInstruction : Obligations.FrameOfEveryInstruction := by
  intro i s t h
  obtain ⟨-, ⟨-, rfl⟩ | ⟨hf, ⟨op, hop, reason, info, -, rfl⟩ | hperf⟩⟩ := exec_next h
  · exact ⟨rfl, rfl, fun _ => ⟨rfl, rfl⟩, fun _ => rfl, fun _ => ⟨rfl, rfl, rfl⟩, fun _ => rfl, fun _ _ => rfl,
      fun _ _ _ => rfl, fun _ => ⟨rfl, rfl⟩, .inl rfl, [], (List.append_nil _).symm⟩
  · have hnew : (faultEntry op reason info s).fault ≠ s.fault := hf ▸ faultEntry_ne_none op reason info s
    have hentry : s.fault = none ∧ ∃ op' reason' info', opcodeOf i = some op' ∧
        faultEntry op reason info s = faultEntry op' reason' info' s := ⟨hf, op, reason, info, hop, rfl⟩
    refine ⟨?_, ?_, fun _ => ?_, fun _ => ?_, fun _ => ?_, fun _ => ?_, fun _ _ => ?_, fun _ _ hkept => absurd hkept hnew,
      fun _ => ⟨faultEntry_result op reason info s, faultEntry_reqIndex op reason info s⟩, .inr hentry,
      if s.stb then [] else [.stb true, .wait .bit], ?_⟩ <;>
    simp only [faultEntry_eq, and_self]
  · obtain rfl := performs_eq hperf
    refine ⟨performed_cfg s i, performed_inputs s i, performed_control s i, performed_buf s i, fun hsamples => ?_,
      performed_dioOut s i, fun hsends hrecv => ?_, fun hbegin hend _ => performs_stb hperf hbegin hend,
      fun hcount => ?_, .inl (performed_fault s i), eventsOf s i, performed_trace s i⟩
    · obtain ⟨hlist, hdrawn⟩ := performed_environment s i hsamples
      exact ⟨hlist, hdrawn, by rw [performed_dioDir, hsamples]; rfl⟩
    · rw [performed_clk, hsends, takesSamples_of_silent hsends hrecv]
      rfl
    · have hwire : i.isRequest = false := hcount.resolve_right (by simp [hf])
      exact performed_uncounted s i hwire

/-! ## What every step keeps -/

/-- A property of the state apart from its inputs is kept by every step, if every reset has it and every instruction and
fault entry keep it: a step waits, resets, runs an instruction, enters the fault of an unassigned opcode, or lets an input
pass. -/
theorem step_keeps {P : State → Prop} (hinputs : ∀ s inputs, P s → P { s with inputs := inputs })
    (hreset : ∀ c inputs samples drawn, c.valid = true →
      P { State.resetWith c with inputs := inputs, samples := samples, drawn := drawn })
    (hexec : ∀ i s t, P s → exec i s = .next t → P t)
    (hentry : ∀ op reason info s, P s → P (faultEntry op reason info s))
    {s t : State} (hs : P s) (h : step s = .next t) : P t := by
  rcases step_next h with ⟨-, -, rfl⟩ | ⟨c, rest, -, hv, rfl⟩ | ⟨-, rest, i, -, -, hrun⟩ |
    ⟨-, rest, op, -, -, -, ⟨-, rfl⟩ | ⟨-, rfl⟩⟩ | ⟨-, rest, op, -, -, -, -, rfl⟩
  · exact hs
  · exact hreset c _ _ _ hv
  · exact hexec i _ t (hinputs s rest hs) hrun
  · exact hinputs s rest hs
  · exact hentry op _ _ _ (hinputs s rest hs)
  · exact hinputs s rest hs

/-! ## The invariant -/

/-- The writers of `buf` leave `D` bytes in it (R26). -/
theorem performed_buf_length {s : State} (h : s.buf.length = s.cfg.digits) (i : Instr) :
    (performed s i).buf.length = s.cfg.digits := by
  cases hw : writesBuf i with
  | false => rw [performed_buf s i hw, h]
  | true => cases i <;> cases hw <;> exact stringToBuffer_length ..

/-- Without a fault the record is consistent. -/
theorem faultConsistent_none {s : State} (h : s.fault = none) : faultConsistent s = true := by
  rw [faultConsistent, h, Option.all_none]

/-- Fault entry leaves the invariant (R165): the lines but the strobe stay, and the record is that of the request. -/
theorem faultEntry_inv {s : State} (h : s.Inv) (op : Byte) (reason : Reason) (info : FaultInfo) :
    (faultEntry op reason info s).Inv := by
  obtain ⟨hv, hclk, hdir, hbuf, -⟩ := h
  rw [faultEntry_eq]
  exact ⟨hv, hclk, hdir, hbuf, by simp [faultConsistent]⟩

/-- Every instruction keeps the invariant. -/
theorem exec_inv {i : Instr} {s t : State} (hinv : s.Inv) (h : exec i s = .next t) : t.Inv := by
  obtain ⟨-, ⟨-, rfl⟩ | ⟨hf, ⟨op, -, reason, info, -, rfl⟩ | hperf⟩⟩ := exec_next h
  · exact hinv
  · exact faultEntry_inv hinv op reason info
  · obtain ⟨hv, hclk, hdir, hbuf, -⟩ := hinv
    obtain rfl := performs_eq hperf
    refine ⟨?_, ?_, ?_, ?_, faultConsistent_none ((performed_fault s i).trans hf)⟩
    · rwa [performed_cfg]
    · rw [performed_clk, hclk, Bool.or_true]
    · rw [performed_dioDir, hdir, ite_self]
    · rw [performed_cfg, performed_buf_length hbuf]

/-- The state of a reset with a configuration that meets R7 meets the invariant (R37). -/
theorem resetWith_inv {c : Config} (hv : c.valid = true) : (State.resetWith c).Inv :=
  ⟨hv, rfl, rfl, List.length_replicate, rfl⟩

/-- Settles O53: a reset meets the invariant, instructions and fault entry keep it, and it does not speak of the inputs. -/
theorem stepKeepsTheInvariant : Obligations.StepKeepsTheInvariant := fun _ _ hs h =>
  step_keeps (P := State.Inv) (fun _ _ hinv => hinv) (fun _ _ _ _ hv => resetWith_inv hv) (fun _ _ _ => exec_inv)
    (fun op reason info _ hinv => faultEntry_inv hinv op reason info) hs h

/-! ## The trace -/

/-- With the strobe high a trace that parses stands between two windows. -/
theorem scanTrace_idle {s : State} (h : traceParses s = true) (hs : s.stb = true) :
    ∃ done, scanTrace s.trace = some ⟨done, .between⟩ := by
  obtain ⟨⟨done, pos⟩, hscan, ⟨-, rfl⟩ | ⟨hlow, -⟩⟩ := (traceParses_iff s).mp h
  · exact ⟨done, hscan⟩
  · simp [hs] at hlow

/-- With the strobe low a trace that parses stands in a window, between two bytes. -/
theorem scanTrace_open {s : State} (h : traceParses s = true) (hs : s.stb = false) :
    ∃ done items, scanTrace s.trace = some ⟨done, .window items⟩ := by
  obtain ⟨⟨done, pos⟩, hscan, ⟨hhigh, -⟩ | ⟨-, items, rfl⟩⟩ := (traceParses_iff s).mp h
  · simp [hs] at hhigh
  · exact ⟨done, items, hscan⟩

theorem traceParses_of_between {s : State} {done : List Frame} (h : scanTrace s.trace = some ⟨done, .between⟩)
    (hs : s.stb = true) : traceParses s = true :=
  (traceParses_iff s).mpr ⟨_, h, .inl ⟨hs, rfl⟩⟩

theorem traceParses_of_window {s : State} {done : List Frame} {items : List Item}
    (h : scanTrace s.trace = some ⟨done, .window items⟩) (hs : s.stb = false) : traceParses s = true :=
  (traceParses_iff s).mpr ⟨_, h, .inr ⟨hs, items, rfl⟩⟩

/-- Fault entry leaves a trace that parses: the events of its strobe release close the open window (R165). -/
theorem faultEntry_traceParses {s : State} (h : traceParses s = true) (op : Byte) (reason : Reason) (info : FaultInfo) :
    traceParses (faultEntry op reason info s) = true := by
  rw [faultEntry_eq]
  cases hs : s.stb with
  | true =>
    obtain ⟨done, hscan⟩ := scanTrace_idle h hs
    exact traceParses_of_between (scanTrace_append_of_eq hscan _) rfl
  | false =>
    obtain ⟨done, items, hscan⟩ := scanTrace_open h hs
    exact traceParses_of_between (scanTrace_append_of_eq hscan _) rfl

/-- An effect that runs leaves a trace that parses, whichever way it uses the bus. -/
theorem performed_traceParses {i : Instr} {s : State} (h : traceParses s = true) (huse : BusUse s i) :
    traceParses (performed s i) = true := by
  have htrace := performed_trace s i
  cases huse with
  | windows _ _ before after scan =>
    obtain ⟨done, hscan⟩ := scanTrace_idle h before
    exact traceParses_of_between (by rw [htrace, scanTrace_append_of_eq hscan, scan]) after
  | oneByte _ _ _ before after scan =>
    obtain ⟨done, items, hscan⟩ := scanTrace_open h before
    exact traceParses_of_window (by rw [htrace, scanTrace_append_of_eq hscan, scan]) after
  | opens begins before =>
    subst begins
    obtain ⟨done, hscan⟩ := scanTrace_idle h before
    exact traceParses_of_window (htrace ▸ scanTrace_append_of_eq hscan _) rfl
  | closes ends before =>
    subst ends
    obtain ⟨done, items, hscan⟩ := scanTrace_open h before
    exact traceParses_of_between (htrace ▸ scanTrace_append_of_eq hscan _) rfl
  | quiet _ _ after silent => rwa [traceParses, htrace, silent, List.append_nil, after]

/-- Every instruction leaves a trace that parses. -/
theorem exec_traceParses {i : Instr} {s t : State} (hparse : traceParses s = true) (h : exec i s = .next t) :
    traceParses t = true := by
  obtain ⟨-, ⟨-, rfl⟩ | ⟨-, ⟨op, -, reason, info, -, rfl⟩ | hperf⟩⟩ := exec_next h
  · exact hparse
  · exact faultEntry_traceParses hparse op reason info
  · obtain rfl := performs_eq hperf
    exact performed_traceParses hparse (performs_busUse hperf)

/-- Settles O54: a reset starts an empty trace, instructions and fault entry leave one that parses, and the inputs do not
count. -/
theorem stepKeepsTheTraceParsable : Obligations.StepKeepsTheTraceParsable := fun _ _ hs h =>
  step_keeps (P := fun s => traceParses s = true) (fun _ _ hparse => hparse) (fun _ _ _ _ _ => rfl)
    (fun _ _ _ => exec_traceParses) (fun op reason info _ hparse => faultEntry_traceParses hparse op reason info) hs h

/-- Settles O9: the invariant and the empty trace of every reset, that of `State.reset` among them. -/
theorem resetMeetsTheInvariants : Obligations.ResetMeetsTheInvariants := by
  have hreset : ∀ c : Config, c.valid = true → (State.resetWith c).Inv ∧ traceParses (State.resetWith c) = true :=
    fun _ hv => ⟨resetWith_inv hv, rfl⟩
  have hargument : Config.argument.valid = true := by decide
  exact ⟨hreset _ hargument, hreset⟩

end Sys2Proof.Machine
end

section
/-! SUPPORT. The decoder against the encoder, and what the step makes of a decoded input (30_encoding.md R61 to R69,
00_scope.md R7): the proofs about encodings and the step. -/

namespace Sys2Proof.Machine

/-! ## Requests -/

/-- A request is known by the number of its opcode byte and its operands (R61). -/
theorem encoded_request {r : Request} {op : Byte} {operands : List Operand} (hop : r.op.toNat = op.toNat)
    (h : r.operands = operands) : Code.request ⟨op, operands⟩ = .request r := by
  rw [← h, ← byte_eq_of_toNat hop]

/-- A request instruction decodes from its encoding (R62, R63). -/
theorem decode_encode_request (c : Config) {i : Instr} (h : i.isRequest = true) : decode c (encode c i) = .instr i := by
  cases i <;> cases h <;> rfl

/-- A request that decodes is the encoding of a request instruction: the opcode byte selects the reader of the operands, and
each reader answers the instruction of those operands alone (R62, R63). -/
theorem encode_of_decodeRequest {r : Request} {i : Instr} (h : decodeRequest r = .instr i) (c : Config) :
    i.isRequest = true ∧ encode c i = .request r := by
  unfold decodeRequest at h
  split at h
  case h_1 hop | h_2 hop | h_4 hop | h_5 hop | h_8 hop | h_10 hop | h_17 hop =>
    obtain ⟨ho, rfl⟩ := takeNone_instr h
    exact ⟨rfl, encoded_request hop ho⟩
  case h_3 hop =>
    obtain ⟨b, ho, rfl⟩ := takeByte_instr h
    exact ⟨rfl, encoded_request hop ho⟩
  case h_6 hop =>
    obtain ⟨a, b, ho, rfl⟩ := takeTwoBytes_instr h
    exact ⟨rfl, encoded_request hop ho⟩
  case h_7 hop =>
    obtain ⟨a, b, ho, rfl⟩ := takeBitByte_instr h
    exact ⟨rfl, encoded_request hop ho⟩
  case h_9 hop =>
    obtain ⟨v, ho, rfl⟩ := takeList_instr h
    exact ⟨rfl, encoded_request hop ho⟩
  case h_11 hop | h_12 hop =>
    obtain ⟨text, dots, font, ho, rfl⟩ := takeText_instr h
    exact ⟨rfl, encoded_request hop ho⟩
  case h_13 hop | h_14 hop =>
    obtain ⟨n, dots, lz, font, ho, rfl⟩ := takeUnsigned_instr h
    exact ⟨rfl, encoded_request hop ho⟩
  case h_15 hop =>
    obtain ⟨n, dots, lz, font, ho, rfl⟩ := takeSigned_instr h
    exact ⟨rfl, encoded_request hop ho⟩
  case h_16 hop =>
    obtain ⟨rep, ho, rfl⟩ := takeReport_instr h
    exact ⟨rfl, encoded_request hop ho⟩
  case h_18 => cases h

/-- Every value of an operand's type can be passed, so every request instruction is well-formed (R63). -/
theorem wellFormed_of_isRequest {i : Instr} (h : i.isRequest = true) : i.wellFormed = true := by
  cases i <;> cases h <;> rfl

/-! ## Wire bytes -/

/-- Every reading of a wire byte is a wire row that sends that byte (R65 to R69; log 8). -/
theorem encode_decodeWire (c : Config) (b : Byte) :
    encode c (decodeWire c b) = .wire b ∧ (decodeWire c b).isRequest = false := by
  unfold decodeWire
  split
  case isTrue hwrite => exact ⟨congrArg Code.wire hwrite.symm, rfl⟩
  case isFalse =>
    split
    case isTrue hread => exact ⟨congrArg Code.wire hread.symm, rfl⟩
    case isFalse =>
      split
      case h_1 f n hctrl => exact ⟨congrArg Code.wire (ctrlByte_of_ctrlFields hctrl), rfl⟩
      case h_2 a _ haddr =>
        obtain ⟨hbyte, -⟩ := addrByte_of_addrField haddr
        exact ⟨congrArg Code.wire hbyte, rfl⟩
      case h_3 => exact ⟨rfl, rfl⟩

/-- Settles O2: the two directions for requests, and the one for wire bytes. -/
theorem decodeAndEncodeAgree : Obligations.DecodeAndEncodeAgree := by
  refine ⟨fun c i _ hreq => decode_encode_request c hreq, fun c r i h => ?_, encode_decodeWire⟩
  obtain ⟨hreq, hcode⟩ := encode_of_decodeRequest h c
  exact ⟨hreq, wellFormed_of_isRequest hreq, hcode⟩

/-- Settles O1: each word is evaluated. -/
theorem sampleWordsDecode : Obligations.SampleWordsDecode := by
  unfold Obligations.SampleWordsDecode
  decide

/-! ## Wire bytes under the default constants -/

/-- The reading of a wire byte rests on six of the parameters. -/
theorem decodeWire_congr {c d : Config} (hwrite : c.cmdWrite = d.cmdWrite) (hread : c.cmdReadKeys = d.cmdReadKeys)
    (hbase : c.cmdDisplayBase = d.cmdDisplayBase) (hflag : c.displayOnFlag = d.displayOnFlag)
    (haddr : c.addrCmdBase = d.addrCmdBase) (hdigits : c.digits = d.digits) (b : Byte) :
    decodeWire c b = decodeWire d b := by
  have hctrls : ctrlFields c b = ctrlFields d b := by
    rw [ctrlFields, ctrlFields, ctrlByte, ctrlByte, hbase, hflag]
  have haddrs : addrField c b = addrField d b := by simp only [addrField, addrByte, haddr, hdigits]
  rw [decodeWire, decodeWire, hctrls, haddrs, hwrite, hread]

/-- The code of a wire row rests on five of them. -/
theorem encode_congr_wire {c d : Config} (hwrite : c.cmdWrite = d.cmdWrite) (hread : c.cmdReadKeys = d.cmdReadKeys)
    (hbase : c.cmdDisplayBase = d.cmdDisplayBase) (hflag : c.displayOnFlag = d.displayOnFlag)
    (haddr : c.addrCmdBase = d.addrCmdBase) {i : Instr} (h : i.isRequest = false) : encode c i = encode d i := by
  cases i <;> cases h <;> simp only [encode, ctrlByte, addrByte, hwrite, hread, hbase, hflag, haddr]

/-- A byte that is none of the commands, control bytes and address bytes is read as data (R69). -/
theorem decodeWire_data {c : Config} {b : Byte} (hwrite : b ≠ c.cmdWrite) (hread : b ≠ c.cmdReadKeys)
    (hctrl : ∀ f n, ctrlByte c f n ≠ b) (haddr : ∀ j < c.digits, addrByte c (planeAddr j) ≠ b) :
    decodeWire c b = .wireData b := by
  have hnoctrl : ctrlFields c b = none :=
    Option.eq_none_iff_forall_ne_some.mpr fun p hp => hctrl p.1 p.2 (ctrlByte_of_ctrlFields hp)
  have hnoaddr : addrField c b = none := by
    refine Option.eq_none_iff_forall_ne_some.mpr fun a ha => ?_
    obtain ⟨hbyte, j, hj, rfl⟩ := addrByte_of_addrField ha
    exact haddr j hj hbyte
  rw [decodeWire, if_neg hwrite, if_neg hread, hnoctrl, hnoaddr]

/-- The addresses with the format of R66 are those of the first eight planes. -/
theorem planeAddr_of_addrFieldOk {a : Byte} (h : addrFieldOk a = true) : ∃ j < 8, a = planeAddr j := by
  rw [addrFieldOk, getLsbD_zero_eq, Bool.and_eq_true, decide_eq_true_eq, Bool.not_eq_true', decide_eq_false_iff_not] at h
  refine ⟨a.toNat / 2, by omega, BitVec.eq_of_toNat_eq ?_⟩
  rw [planeAddr, BitVec.toNat_ofNat]
  omega

/-- Every well-formed wire row decodes from its byte under the defaults of R6. -/
theorem decodeWire_argument {i : Instr} (hreq : i.isRequest = false) (hwf : i.wellFormed = true)
    (hdata : ∀ d, i = .wireData d → d ≠ 0x40#8 ∧ d ≠ 0x42#8 ∧ d &&& 0xF0#8 ≠ 0x80#8 ∧ d &&& 0xF1#8 ≠ 0xC0#8) :
    decode Config.argument (encode Config.argument i) = .instr i := by
  cases i
  case wireCmdWrite | wireReadKeys => decide
  case wireAddr a =>
    have hplanes : ∀ j < 8,
        decodeWire Config.argument (addrByte Config.argument (planeAddr j)) = .wireAddr (planeAddr j) := by decide
    obtain ⟨j, hj, rfl⟩ := planeAddr_of_addrFieldOk hwf
    exact congrArg Decoded.instr (hplanes j hj)
  case wireDispctl f n =>
    have hcontrols : ∀ f n, decodeWire Config.argument (ctrlByte Config.argument f n) = .wireDispctl f n := by decide
    exact congrArg Decoded.instr (hcontrols f n)
  case wireData d =>
    obtain ⟨hwrite, hread, hctrl, haddr⟩ := hdata d rfl
    have hctrlForm : ∀ f n, ctrlByte Config.argument f n &&& 0xF0#8 = 0x80#8 := by decide
    have haddrForm : ∀ j < 8, addrByte Config.argument (planeAddr j) &&& 0xF1#8 = 0xC0#8 := by decide
    refine congrArg Decoded.instr (decodeWire_data hwrite hread ?_ ?_)
    · rintro f n rfl
      exact hctrl (hctrlForm f n)
    · rintro j hj rfl
      exact haddr (haddrForm j hj)
  all_goals cases hreq

/-- Settles O3: the constants are those of `Config.argument`, and no other parameter is read. -/
theorem defaultWireBytesDecode : Obligations.DefaultWireBytesDecode := by
  intro c i hwrite hread hbase hflag haddr hdigits hreq hwf hdata
  have hwire : ∀ b, decode c (.wire b) = decode Config.argument (.wire b) := fun b =>
    congrArg Decoded.instr (decodeWire_congr hwrite hread hbase hflag haddr hdigits b)
  obtain ⟨b, hb⟩ : ∃ b, encode Config.argument i = .wire b := by cases i <;> cases hreq <;> exact ⟨_, rfl⟩
  rw [encode_congr_wire (d := Config.argument) hwrite hread hbase hflag haddr hreq, hb, hwire, ← hb,
    decodeWire_argument hreq hwf hdata]

/-! ## The step -/

/-- A step whose oldest input decodes to an instruction runs it on the state without that input. -/
theorem step_instr {s : State} {k : Code} {rest : List Input} {i : Instr} (hi : s.inputs = .code k :: rest)
    (hd : decode s.cfg k = .instr i) : step s = exec i { s with inputs := rest } := by
  simp only [step, fetch, hi, hd, workOf, consume, List.tail_cons]

/-- A step whose oldest input is a reset is that reset. -/
theorem step_reset {s : State} {c : Config} {rest : List Input} (hi : s.inputs = .reset c :: rest) :
    step s = applyReset c { s with inputs := rest } := by
  simp only [step, fetch, hi, consume, List.tail_cons]

/-- Settles O5: what the oldest input asks for, case by case. -/
theorem stepRunsTheDecodedInstruction : Obligations.StepRunsTheDecodedInstruction := by
  refine ⟨fun s k rest i => step_instr, fun s c rest => step_reset, fun s hi hv => ?_⟩
  simp only [step, fetch, hi, waitForRequest, hv, if_true]

/-- Settles O6: the placed code decodes to the word's instruction, and opens the window exactly where it is a wire byte. -/
theorem placedWordRunsNext : Obligations.PlacedWordRunsNext := by
  intro s w i hcfg hword
  rw [decodeTableWord, if_pos rfl] at hword
  have hd : decode s.cfg (tableCode (BitVec.ofNat 8 w)) = .instr i := by
    rw [hcfg]
    split at hword
    case h_1 j hj =>
      obtain rfl := Option.some_inj.mp hword
      exact hj
    case h_2 | h_3 => cases hword
  rw [State.withFetchWord, placeWord]
  cases hk : tableCode (BitVec.ofNat 8 w) with
  | request r =>
    rw [hk] at hd
    have hreq := (encode_of_decodeRequest hd s.cfg).1
    rw [if_pos hreq]
    exact step_instr rfl hd
  | wire b =>
    rw [hk] at hd
    have hreq : i.isRequest = false := Decoded.instr.inj hd ▸ (encode_decodeWire s.cfg b).2
    rw [if_neg (by simp [hreq])]
    exact step_instr rfl hd

/-! ## A configuration that breaks R7 -/

/-- Every instruction is refused under a configuration that breaks R7 (log 10). -/
theorem exec_invalid {s : State} (hv : s.cfg.valid = false) (i : Instr) : exec i s = .refused .invalidConfig := by
  cases i
  case wireAddr a =>
    have hguard : ¬(s.cfg.valid && !halted s && (a.getLsbD 0 || !positionOk s.cfg a)) = true := by simp [hv]
    exact (if_neg hguard).trans (whenServing_invalid hv _)
  all_goals exact whenServing_invalid hv _

theorem applyReset_invalid {c : Config} (hv : c.valid = false) (s : State) :
    applyReset c s = .refused .invalidConfig := by
  simp only [applyReset, hv, Bool.false_eq_true, if_false]

/-- Settles O8: a step runs an instruction, answers a rejected request, or waits, each of which looks at the configuration
first; a reset looks at its own. -/
theorem badConfigurationIsRefused : Obligations.BadConfigurationIsRefused := by
  refine ⟨fun s i hv => exec_invalid hv i, fun s hv hreset => ?_, fun s c rest hi hv => ?_⟩
  · have hconsumed : (consume s).cfg.valid = false := hv
    unfold step
    cases hw : fetch s with
    | idle => simp only [waitForRequest, hv, Bool.false_eq_true, if_false]
    | reset c =>
      unfold fetch at hw
      split at hw
      case h_1 => cases hw
      case h_2 c' rest hi => exact absurd hi (hreset c' rest)
      case h_3 k rest hi => cases hk : decode s.cfg k <;> rw [hk] at hw <;> cases hw
    | run i => exact exec_invalid hconsumed i
    | illegal op | malformed op => exact whenServing_invalid hconsumed _
  · rw [step_reset hi, applyReset_invalid hv]

end Sys2Proof.Machine
end

section
/-! SUPPORT. What a serving block answers, as one equation per kind of row (60_exceptions.md R160 to R164): which checks a
request makes, what it raises where one fails, and that nothing but a wire byte can stop. -/

namespace Sys2Proof.Machine

/-! ## The checks of a request -/

/-- The check of an operation's operands that fails first, if one does (R164 (4)). -/
def operandCheck (c : Config) : Instr → Option (Reason × FaultInfo)
  | .ceWrat a _ =>
    if a.getLsbD 0 then some (.oddAddress, .addr a) else if positionOk c a then none else some (.position, .addr a)
  | .ceDispctl _ x => if (intensityOperand c x).isSome then none else some (.intensity, .intensity x)
  | .dtSetdisp values => if values.length > c.digits then some (.len, .len values.length) else none
  | .dtStr2buf text _ font | .dtShowstr text _ font => fontChecks c.digits text font
  | .dtShowhex n _ lz font => fontChecks c.digits (fmtHex c.fmtPadWidth n lz) font
  | .dtShowudec n _ lz font => fontChecks c.digits (fmtUDec c.fmtPadWidth n lz) font
  | .dtShowsdec n _ lz font => fontChecks c.digits (fmtSDec c.fmtPadWidth n lz) font
  | _ => none

/-- The check that fails first, that of the strobe before those of the operands (R164). -/
def failedCheck (s : State) : Instr → Option (Reason × FaultInfo)
  | .bbTxnEnd | .bbSend _ | .bbRecv => if s.stb then some (.noTxn, .empty) else none
  | .dtStr2buf text dots font => operandCheck s.cfg (.dtStr2buf text dots font)
  | .kdDecode _ => none
  | i => if s.stb then operandCheck s.cfg i else some (.txnOpen, .empty)

/-- Fault entry from a check that failed, else the state `u`. -/
def answer (op : Byte) (s : State) (check : Option (Reason × FaultInfo)) (u : State) :
    Host.Outcome State Fault Refusal :=
  .next (check.elim u fun failed => faultEntry op failed.1 failed.2 s)

section
variable (op : Byte) (s : State) (check : Option (Reason × FaultInfo)) (u : State)

theorem requireIdle_answer :
    requireIdle op s (answer op s check u) = answer op s (if s.stb then check else some (.txnOpen, .empty)) u := by
  cases hs : s.stb with
  | true => rw [requireIdle_idle hs, if_pos rfl]
  | false => rw [requireIdle_open hs, if_neg Bool.false_ne_true]; rfl

theorem requireWindow_answer :
    requireWindow op s (.next u) = answer op s (if s.stb then some (.noTxn, .empty) else none) u := by
  cases hs : s.stb with
  | true => rw [requireWindow_idle hs, if_pos rfl]; rfl
  | false => rw [requireWindow_open hs, if_neg Bool.false_ne_true]; rfl

theorem setDisplay_eq {values : List Byte} (hd : 1 ≤ s.cfg.digits) :
    setDisplay op values s = answer op s (if s.stb then
      (if values.length > s.cfg.digits then some (.len, .len values.length) else none) else some (.txnOpen, .empty))
      (planesShown s values) := by
  rw [setDisplay, ← requireIdle_answer, complete_writePlanes values s hd]
  split <;> rfl

theorem showText_eq {text font : List Byte} {dots : Byte} (hd : 1 ≤ s.cfg.digits) :
    showText op text dots font s = answer op s (if s.stb then fontChecks s.cfg.digits text font
      else some (.txnOpen, .empty)) (textShown s text dots font) := by
  have hshown := complete_writePlanes (stringToBuffer s.cfg.digits text dots font) (renderText text dots font s) hd
  rw [renderText_cfg] at hshown
  rw [showText, ← requireIdle_answer, hshown]
  cases fontChecks s.cfg.digits text font <;> rfl

end

/-- The whole meaning of a request in a serving block: the first check that fails raises, else the effect runs. -/
theorem exec_request {i : Instr} {s : State} {op : Byte} (hs : s.Serving) (hop : opcodeOf i = some op) :
    exec i s = answer op s (failedCheck s i) (performed s i) := by
  have hd := digits_pos hs.1
  have idle : ∀ {k check}, k = answer op s check (performed s i) →
      whenServing s (requireIdle op s k) =
        answer op s (if s.stb then check else some (.txnOpen, .empty)) (performed s i) := by
    rintro _ check rfl
    rw [whenServing_serving hs, requireIdle_answer]
  have window : ∀ {u}, u = performed s i → whenServing s (requireWindow op s (.next u)) =
      answer op s (if s.stb then some (.noTxn, .empty) else none) (performed s i) := by
    rintro _ rfl
    rw [whenServing_serving hs, requireWindow_answer]
  cases i <;> cases hop
  case bbTxnBegin => exact idle (check := none) rfl
  case bbTxnEnd => exact window rfl
  case bbSend b => exact window (by rw [sendByte_eq]; rfl)
  case bbRecv => exact window (by rw [receiveByte_eq]; rfl)
  case ceWrcmd => exact idle (check := none) (by rw [sendTransaction_eq]; rfl)
  case ceWrat a v =>
    refine idle (check := operandCheck s.cfg (.ceWrat a v)) ?_
    rw [writeFrame_eq, operandCheck]
    split
    · rfl
    · split <;> rfl
  case ceDispctl on x =>
    refine idle (check := operandCheck s.cfg (.ceDispctl on x)) ?_
    rw [operandCheck, performed]
    cases intensityOperand s.cfg x with
    | none => rfl
    | some n => dsimp only; rw [sendTransaction_eq]; rfl
  case ceReadkeys => exact idle (check := none) (by rw [readKeys_eq]; rfl)
  case dtSetdisp values => exact (whenServing_serving hs _).trans (setDisplay_eq opSetdisp s hd)
  case dtClear => exact (whenServing_serving hs _).trans (setDisplay_eq opClear s hd)
  case dtStr2buf text dots font =>
    refine (whenServing_serving hs _).trans ?_
    rw [failedCheck, operandCheck]
    cases fontChecks s.cfg.digits text font <;> rfl
  case dtShowstr => exact (whenServing_serving hs _).trans (showText_eq opShowstr s hd)
  case dtShowhex => exact (whenServing_serving hs _).trans (showText_eq opShowhex s hd)
  case dtShowudec => exact (whenServing_serving hs _).trans (showText_eq opShowudec s hd)
  case dtShowsdec => exact (whenServing_serving hs _).trans (showText_eq opShowsdec s hd)
  case kdDecode => exact whenServing_serving hs _
  case kdGetkeys => exact idle (check := none) (by rw [readKeys_eq]; rfl)

/-- A request whose checks all pass runs its effect. -/
theorem exec_passes {i : Instr} {s : State} {op : Byte} (hs : s.Serving) (hop : opcodeOf i = some op)
    (hc : failedCheck s i = none) : exec i s = .next (performed s i) := by
  rw [exec_request hs hop, hc]
  rfl

theorem opcodeOf_of_isRequest {i : Instr} (h : i.isRequest = true) : ∃ op, opcodeOf i = some op := by
  cases i <;> cases h <;> exact ⟨_, rfl⟩

/-- Settles O15: a serving block answers by `exec_request`, and a halted one stays as it is. -/
theorem everyRequestAnswersANextState : Obligations.EveryRequestAnswersANextState := by
  intro i s hreq hv
  by_cases hf : s.fault = none
  · obtain ⟨op, hop⟩ := opcodeOf_of_isRequest hreq
    exact ⟨_, exec_request ⟨hv, hf⟩ hop⟩
  · exact ⟨s, exec_halted_eq hv hf i⟩

/-! ## The reasons a check can give -/

theorem charChecks_reason {n i : Nat} {cs : List Byte} {failed : Reason × FaultInfo}
    (h : charChecks n i cs = some failed) : failed.1 = .fontIndexLow ∨ failed.1 = .fontIndexHigh := by
  induction cs generalizing i with
  | nil => cases h
  | cons c cs ih =>
    by_cases hlow : c.toNat < 32
    · rw [charChecks_low hlow] at h
      cases h
      exact .inl rfl
    · by_cases hhigh : n ≤ c.toNat - 32
      · rw [charChecks_high (Nat.le_of_not_lt hlow) hhigh] at h
        cases h
        exact .inr rfl
      · rw [charChecks_entry ⟨Nat.le_of_not_lt hlow, Nat.lt_of_not_le hhigh⟩] at h
        exact ih h

/-- The font checks give the three font reasons (R129, R161). -/
theorem fontChecks_reason {d : Nat} {text font : List Byte} {failed : Reason × FaultInfo}
    (h : fontChecks d text font = some failed) : failed.1 ∈ [.fontShort, .fontIndexLow, .fontIndexHigh] := by
  by_cases hfont : 96 ≤ font.length
  · rw [fontChecks_long hfont] at h
    obtain hlow | hhigh := charChecks_reason h
    · simp [hlow]
    · simp [hhigh]
  · rw [fontChecks_short (Nat.lt_of_not_le hfont)] at h
    cases h
    exact List.mem_cons_self

/-- Showing a printable text raises for an open window or a short font only (R137). -/
theorem fontChecks_reason_printable {d : Nat} {text font : List Byte} {failed : Reason × FaultInfo}
    (htext : ∀ c ∈ text, Printable c) (h : fontChecks d text font = some failed) :
    failed.1 ∈ [.txnOpen, .fontShort] := by
  by_cases hfont : 96 ≤ font.length
  · rw [fontChecks_printable hfont htext] at h
    cases h
  · rw [fontChecks_short (Nat.lt_of_not_le hfont)] at h
    cases h
    exact List.mem_cons_of_mem _ List.mem_cons_self

/-- The operand checks give reasons of the operation's own rows (R161). -/
theorem operandCheck_reason {c : Config} {i : Instr} {failed : Reason × FaultInfo} (h : operandCheck c i = some failed) :
    failed.1 ∈ mayRaise i := by
  cases i
  case ceWrat a v =>
    simp only [operandCheck] at h
    split at h
    · cases h
      exact List.mem_cons_of_mem _ List.mem_cons_self
    · split at h <;> cases h
      exact List.mem_cons_of_mem _ (List.mem_cons_of_mem _ List.mem_cons_self)
  case ceDispctl | dtSetdisp =>
    simp only [operandCheck] at h
    split at h <;> cases h
    exact List.mem_cons_of_mem _ List.mem_cons_self
  case dtStr2buf => exact fontChecks_reason h
  case dtShowstr => exact List.mem_cons_of_mem _ (fontChecks_reason h)
  case dtShowhex n _ lz _ => exact fontChecks_reason_printable (printable_of_mem_fmtHex _ n lz) h
  case dtShowudec n _ lz _ => exact fontChecks_reason_printable (printable_of_mem_fmtUDec _ n lz) h
  case dtShowsdec n _ lz _ => exact fontChecks_reason_printable (printable_of_mem_fmtSDec _ n lz) h
  all_goals cases h

/-- The check that fails first gives a reason of the operation's own rows (R161). -/
theorem failedCheck_reason {s : State} {i : Instr} {op : Byte} {failed : Reason × FaultInfo} (hop : opcodeOf i = some op)
    (h : failedCheck s i = some failed) : failed.1 ∈ mayRaise i := by
  have idle : Reason.txnOpen ∈ mayRaise i →
      (if s.stb then operandCheck s.cfg i else some (.txnOpen, .empty)) = some failed → failed.1 ∈ mayRaise i := by
    intro hopen h
    split at h
    · exact operandCheck_reason h
    · cases h
      exact hopen
  cases i <;> cases hop
  case bbTxnEnd | bbSend | bbRecv =>
    simp only [failedCheck] at h
    split at h <;> cases h
    exact List.mem_cons_self
  case dtStr2buf => exact operandCheck_reason h
  case kdDecode => cases h
  all_goals exact idle List.mem_cons_self h

/-- Settles O12: an instruction without an opcode records nothing, and a request records what its first failed check gives. -/
theorem onlyListedReasonsAreRaised : Obligations.OnlyListedReasonsAreRaised := by
  intro i s t r hf h hr
  rcases exec_unfaulted hf h with ⟨op, hop, -⟩ | hperf
  · obtain ⟨hv, -⟩ := exec_next h
    rw [exec_request ⟨hv, hf⟩ hop, answer] at h
    obtain rfl := Host.Outcome.next.inj h
    cases hc : failedCheck s i with
    | none => rw [hc, Option.elim_none, performed_fault, hf] at hr; cases hr
    | some failed =>
      rw [hc, Option.elim_some, faultEntry_fault] at hr
      cases hr
      exact failedCheck_reason hop hc
  · rw [(performs_completes hperf).1, hf] at hr
    cases hr

/-! ## The composite operations -/

/-- Settles O14: with a window open the strobe check fails first, and in every case the strobe ends high: fault entry
releases it, and a composite operation closes its own windows. -/
theorem compositeOperationsNeedTheBusIdle : Obligations.CompositeOperationsNeedTheBusIdle := by
  refine fun i s hi => ⟨exec_composite_open hi, fun hs t h => ?_⟩
  rcases exec_unfaulted hs.2 h with ⟨op, -, reason, info, -, rfl⟩ | hperf
  · exact faultEntry_stb op reason info s
  · obtain rfl := performs_eq hperf
    cases performs_busUse hperf with
    | windows _ _ _ after => exact after
    | oneByte _ _ raw => exact absurd hi (by simp [raw])
    | opens begins => subst begins; cases hi
    | closes ends => subst ends; cases hi
    | quiet raw => exact absurd hi (by simp [raw])

/-! ## Wire bytes -/

theorem sendInWindow_open {s : State} (h : s.InWindow) (b : Byte) : sendInWindow b s = .next (byteSent s b) := by
  rw [sendInWindow, whenServing_serving h.1, windowOpen_eq, h.2, sendByte_eq]
  simp [byteSent, h.2]

theorem sendInWindow_idle {s : State} (h : s.Idle) (b : Byte) : sendInWindow b s = .fault .sendOutsideWindow := by
  rw [sendInWindow, whenServing_serving h.1, windowOpen_eq, h.2]
  simp

/-- The address of a wire address byte is a plane's (R42, R70). -/
def wireAddrOk (c : Config) (i : Instr) : Prop := ∀ a, i = .wireAddr a → a.toNat % 2 = 0 ∧ a.toNat < 2 * c.digits

/-- A serving block stops at an address byte exactly where its address is odd or no plane's (R42, log 7). -/
theorem exec_wireAddr_serving {s : State} (h : s.Serving) (a : Byte) :
    exec (.wireAddr a) s =
      if a.toNat % 2 = 1 ∨ 2 * s.cfg.digits ≤ a.toNat then .fault .reservedAddressByte
      else sendInWindow (addrByte s.cfg a) s := by
  have hguard : (s.cfg.valid && !halted s && (a.getLsbD 0 || !positionOk s.cfg a)) = true ↔
      a.toNat % 2 = 1 ∨ 2 * s.cfg.digits ≤ a.toNat := by
    rw [h.1, halted_eq, h.2, getLsbD_zero_eq, positionOk_eq]
    simp
  simp only [exec, execWireAddr, hguard]

/-- In an open window a wire row with an address the block sends runs its effect. -/
theorem exec_wire_open {s : State} {i : Instr} (h : s.InWindow) (hi : i.isRequest = false) (ha : wireAddrOk s.cfg i) :
    exec i s = .next (performed s i) := by
  cases i <;> cases hi
  case wireAddr a =>
    obtain ⟨heven, hin⟩ := ha a rfl
    rw [exec_wireAddr_serving h.1, if_neg (by omega)]
    exact sendInWindow_open h _
  all_goals exact sendInWindow_open h _

/-- With no window open such a row stops. -/
theorem exec_wire_idle {s : State} {i : Instr} (h : s.Idle) (hi : i.isRequest = false) (ha : wireAddrOk s.cfg i) :
    exec i s = .fault .sendOutsideWindow := by
  cases i <;> cases hi
  case wireAddr a =>
    obtain ⟨heven, hin⟩ := ha a rfl
    rw [exec_wireAddr_serving h.1, if_neg (by omega)]
    exact sendInWindow_idle h _
  all_goals exact sendInWindow_idle h _

/-- Settles O47: the effect of a wire row is that of its byte. -/
theorem wireBytesAreClockedOut : Obligations.WireBytesAreClockedOut := by
  rintro s i b h (⟨rfl, rfl⟩ | ⟨a, rfl, rfl, ha⟩ | ⟨f, n, rfl, rfl⟩ | ⟨rfl, rfl⟩ | rfl)
  · exact exec_wire_open h rfl nofun
  · exact exec_wire_open h rfl fun _ heq => Instr.wireAddr.inj heq ▸ ha
  all_goals exact exec_wire_open h rfl nofun

/-- Settles O48: the address is looked at first, then the strobe. -/
theorem wireBytesStopOutsideTheirFormat : Obligations.WireBytesStopOutsideTheirFormat :=
  ⟨fun _ a h ha => (exec_wireAddr_serving h a).trans (if_pos ha), fun _ _ h hi ha => exec_wire_idle h hi ha⟩

/-! ## What the environment answers -/

section
variable (samples : List Bit) (drawn : Nat)

/-- `s` in an environment with other answers. -/
def State.withEnvironment (s : State) : State := { s with samples := samples, drawn := drawn }

theorem faultEntry_withEnvironment (op : Byte) (reason : Reason) (info : FaultInfo) (s : State) :
    faultEntry op reason info (s.withEnvironment samples drawn) =
      (faultEntry op reason info s).withEnvironment samples drawn := by
  rw [faultEntry_eq, faultEntry_eq]
  rfl

theorem performed_withEnvironment {i : Instr} (h : takesSamples i = false) (s : State) :
    performed (s.withEnvironment samples drawn) i = (performed s i).withEnvironment samples drawn := by
  cases i <;> cases h <;> rfl

theorem failedCheck_withEnvironment (s : State) (i : Instr) :
    failedCheck (s.withEnvironment samples drawn) i = failedCheck s i := by
  cases i <;> rfl

/-- What a request answers moves to another environment with it. -/
theorem answer_withEnvironment (op : Byte) (s u t : State) (check : Option (Reason × FaultInfo))
    (h : answer op s check u = .next t) :
    answer op (s.withEnvironment samples drawn) check (u.withEnvironment samples drawn) =
      .next (t.withEnvironment samples drawn) := by
  obtain rfl := Host.Outcome.next.inj h
  cases check with
  | none => rfl
  | some failed => exact congrArg Host.Outcome.next (faultEntry_withEnvironment samples drawn op failed.1 failed.2 s)

end

/-- An address byte that runs has an address the block sends. -/
theorem wireAddrOk_of_performs {i : Instr} {s t : State} (h : Performs s t i) : wireAddrOk s.cfg i := by
  rintro a rfl
  obtain ⟨-, heven, hpos, -⟩ := h
  rw [getLsbD_zero_eq, decide_eq_false_iff_not] at heven
  rw [positionOk_eq, decide_eq_true_eq] at hpos
  exact ⟨by omega, hpos⟩

/-- An instruction with no opcode byte is a wire row. -/
theorem isRequest_of_opcodeOf {i : Instr} (h : opcodeOf i = none) : i.isRequest = false := by
  cases i <;> cases h <;> rfl

/-- Settles O52: neither the checks nor the effect of an instruction that takes no sample look at the environment. -/
theorem onlyReadsObserveTheEnvironment : Obligations.OnlyReadsObserveTheEnvironment := by
  intro i s t samples drawn hi h
  change exec i (s.withEnvironment samples drawn) = .next (t.withEnvironment samples drawn)
  obtain ⟨hv, ⟨hf, rfl⟩ | ⟨hf, hwhole⟩⟩ := exec_next h
  · exact exec_halted_eq (s := t.withEnvironment samples drawn) hv hf i
  · have hs' : (s.withEnvironment samples drawn).Serving := ⟨hv, hf⟩
    cases hop : opcodeOf i with
    | some op =>
      rw [exec_request ⟨hv, hf⟩ hop] at h
      rw [exec_request hs' hop, failedCheck_withEnvironment, performed_withEnvironment samples drawn hi]
      exact answer_withEnvironment samples drawn op s _ t _ h
    | none =>
      obtain ⟨op, hsome, -⟩ | hperf := hwhole
      · rw [hop] at hsome
        cases hsome
      · have hwire := isRequest_of_opcodeOf hop
        have hopen : (s.withEnvironment samples drawn).InWindow := by
          refine ⟨hs', ?_⟩
          cases i <;> cases hwire <;> exact hperf.1
        rw [exec_wire_open hopen hwire (wireAddrOk_of_performs (s := s) hperf), performed_withEnvironment samples drawn hi,
          ← performs_eq hperf]

/-! ## The draws -/

/-- The bits of some bytes in the order in which they are received (R45). -/
def bitsOf (bs : List Byte) : List Bit := bs.flatMap fun b => (List.range 8).map fun k => b.getLsbD k

theorem bitsOf_cons (b : Byte) (bs : List Byte) :
    bitsOf (b :: bs) = ((List.range 8).map fun k => b.getLsbD k) ++ bitsOf bs :=
  List.flatMap_cons

theorem bitsOf_length (bs : List Byte) : (bitsOf bs).length = 8 * bs.length := by
  simp [bitsOf, List.length_flatMap, Nat.mul_comm]

/-- Where the environment answers the bits of some bytes, byte `k` drawn is byte `k` of those (R85). -/
theorem drawnOf_bitsOf {bs : List Byte} {k : Nat} (hk : k < bs.length) (rest : List Bit) (drawn : Nat) :
    drawnOf (bitsOf bs ++ rest) drawn k = bs[k] := by
  induction bs generalizing k drawn with
  | nil => exact absurd hk (Nat.not_lt_zero k)
  | cons b bs ih =>
    rw [bitsOf_cons, List.append_assoc]
    cases k with
    | zero =>
      refine BitVec.eq_of_getLsbD_eq fun j hj => ?_
      have hcells : bitCells = List.range 8 := rfl
      rw [drawnOf, byteOfBits_getLsbD _ _ hj, hcells]
      simp [hj, List.getElem?_append_left]
    | succ k =>
      rw [← drawnOf_drop, List.drop_left' (by simp)]
      exact ih (Nat.lt_of_succ_lt_succ hk) (drawn + 8)

theorem drawnReport_getElem (s : State) {k : Nat} (hk : k < 4) : (drawnReport s)[k] = drawnByte s k := by
  interval_cases k <;> rfl

/-- Where the environment answers the bits of four bytes, a key read draws their report and leaves the rest. -/
theorem drawnReport_of_bitsOf {s : State} {rep : KeyReport} {rest : List Bit}
    (h : s.samples = bitsOf rep.toList ++ rest) : drawnReport s = rep ∧ s.samples.drop 32 = rest := by
  refine ⟨Vector.ext fun k hk => ?_, ?_⟩
  · rw [drawnReport_getElem s hk, drawnByte_eq, h, drawnOf_bitsOf (by simpa)]
    simp
  · rw [h, List.drop_left' (by simp [bitsOf_length])]

/-! ## The operations that take samples -/

theorem exec_bbRecv_open {s : State} (h : s.InWindow) : exec .bbRecv s = .next (performed s .bbRecv) :=
  exec_passes h.1 rfl (if_neg (by simp [h.2]))

theorem exec_ceReadkeys_idle {s : State} (h : s.Idle) : exec .ceReadkeys s = .next (performed s .ceReadkeys) :=
  exec_passes h.1 rfl (if_pos h.2)

theorem exec_kdGetkeys_idle {s : State} (h : s.Idle) : exec .kdGetkeys s = .next (performed s .kdGetkeys) :=
  exec_passes h.1 rfl (if_pos h.2)

/-- Settles O46: BB.RECV draws a byte and the key reads a report, of which the closed forms name every bit. -/
theorem receivedBitsAreTheDraws : Obligations.ReceivedBitsAreTheDraws := by
  refine ⟨fun s h => ?_, fun s h => ?_, fun s rep rest h hs => ?_⟩
  · refine ⟨_, drawnByte s 0, exec_bbRecv_open h, rfl, fun k hk => ?_, rfl, rfl⟩
    rw [drawnByte_getLsbD s 0 k hk, Nat.mul_zero, Nat.zero_add]
  · refine ⟨_, _, drawnReport s, exec_ceReadkeys_idle h, rfl, exec_kdGetkeys_idle h, rfl, fun k hk j hj => ?_,
      rfl, rfl, rfl, rfl⟩
    rw [drawnReport_getElem s hk, drawnByte_getLsbD s k j hj]
  · obtain ⟨hrep, hrest⟩ := drawnReport_of_bitsOf hs
    exact ⟨⟨_, exec_ceReadkeys_idle h, congrArg Result.report hrep, hrest⟩,
      ⟨_, exec_kdGetkeys_idle h, congrArg (fun r => Result.mask (decodeKeys s.cfg.keyRemap r)) hrep, hrest⟩⟩

end Sys2Proof.Machine
end

section
/-! SUPPORT. How many events a completed instruction adds, and how many of them are inter-byte delays (42_command_encoder.md
R107, 70_reset_and_hazards.md section 3). -/

namespace Sys2Proof.Machine

/-- An instruction that leaves no fault in a serving block has performed. -/
theorem exec_completes {i : Instr} {s t : State} (hf : s.fault = none) (h : exec i s = .next t) (ht : t.fault = none) :
    Performs s t i := by
  rcases exec_unfaulted hf h with ⟨op, -, hraise⟩ | hperf
  · exact absurd ht (raises_keeps_count hraise).1
  · exact hperf

/-! ## Lengths -/

@[simp] theorem sendEvents_length (b : Byte) : (sendEvents b).length = 48 := rfl

@[simp] theorem recvEvents_length (r : Byte) : (recvEvents r).length = 42 := rfl

/-- A window of `n` sent bytes takes 48 events a byte and four for the strobe (R81, R86). -/
@[simp] theorem sendWindowEvents_length (bs : List Byte) : (sendWindowEvents bs).length = 48 * bs.length + 4 := by
  simp [sendWindowEvents, windowEvents, List.length_flatMap, Nat.mul_comm]

/-- The events of one register write (R108): one window of three bytes, or one of one and one of two. -/
def writeLength (c : Config) : Nat := if c.writeFraming = .oneWindow then 148 else 152

@[simp] theorem writeEvents_length (c : Config) (a v : Byte) : (writeEvents c a v).length = writeLength c := by
  unfold writeEvents writeLength
  cases c.writeFraming <;> simp

@[simp] theorem planeEvents_length (c : Config) (j : Nat) (ws : List Byte) :
    (planeEvents c j ws).length = writeLength c * ws.length := by
  induction ws generalizing j with
  | nil => rfl
  | cons w ws ih =>
    rw [planeEvents, List.length_append, writeEvents_length, ih, List.length_cons, Nat.mul_succ, Nat.add_comm]

@[simp] theorem readKeysEvents_length (c : Config) (rep : KeyReport) : (readKeysEvents c rep).length = 228 := by
  simp [readKeysEvents, windowEvents, List.length_flatMap]

theorem shownEvents_length (s : State) (values : List Byte) :
    (eventsOf.shown s values).length = writeLength s.cfg * s.cfg.digits := by
  rw [eventsOf.shown, planeEvents_length, transpose_length]

/-- Settles O51: a request that completes adds its own events, which are counted row by row. -/
theorem eventCountsPerRequest : Obligations.EventCountsPerRequest := by
  intro i s t hreq hs h ht
  obtain rfl := performs_eq (exec_completes hs.2 h ht)
  rw [performed_trace, List.length_append, Nat.add_left_cancel_iff]
  cases i <;> cases hreq
  case bbTxnBegin | bbTxnEnd | bbSend | bbRecv | dtStr2buf | kdDecode => rfl
  case ceWrcmd | ceDispctl => exact sendWindowEvents_length _
  case ceWrat => exact writeEvents_length _ _ _
  case ceReadkeys | kdGetkeys => exact readKeysEvents_length _ _
  case dtSetdisp | dtClear | dtShowstr | dtShowhex | dtShowudec | dtShowsdec => exact shownEvents_length s _

/-! ## Inter-byte delays -/

/-- The number of `Wait(BYTE)` among some events (R107). -/
def byteWaits (events : List Event) : Nat := events.count (.wait .byte)

theorem byteWaits_append (xs ys : List Event) : byteWaits (xs ++ ys) = byteWaits xs + byteWaits ys :=
  List.count_append

@[simp] theorem byteWaits_sendEvents (b : Byte) : byteWaits (sendEvents b) = 0 := rfl

@[simp] theorem byteWaits_recvEvents (r : Byte) : byteWaits (recvEvents r) = 0 := rfl

/-- A window adds no inter-byte delay to those of its body. -/
theorem byteWaits_windowEvents (body : List Event) : byteWaits (windowEvents body) = byteWaits body := by
  have hopen : byteWaits [.stb false, .wait .bit] = 0 := rfl
  have hclose : byteWaits [.stb true, .wait .bit] = 0 := rfl
  rw [windowEvents, byteWaits_append, byteWaits_append, hopen, hclose, Nat.zero_add, Nat.add_zero]

@[simp] theorem byteWaits_sendWindowEvents (bs : List Byte) : byteWaits (sendWindowEvents bs) = 0 := by
  rw [sendWindowEvents, byteWaits_windowEvents]
  induction bs with
  | nil => rfl
  | cons b bs ih => rw [List.flatMap_cons, byteWaits_append, byteWaits_sendEvents, ih]

@[simp] theorem byteWaits_writeEvents (c : Config) (a v : Byte) : byteWaits (writeEvents c a v) = 0 := by
  unfold writeEvents
  cases c.writeFraming with
  | oneWindow => exact byteWaits_sendWindowEvents _
  | twoWindows => simp [byteWaits_append]

@[simp] theorem byteWaits_planeEvents (c : Config) (j : Nat) (ws : List Byte) : byteWaits (planeEvents c j ws) = 0 := by
  induction ws generalizing j with
  | nil => rfl
  | cons w ws ih => rw [planeEvents, byteWaits_append, byteWaits_writeEvents, ih]

/-- Every received report byte stands between two inter-byte delays (R107). -/
theorem byteWaits_reportEvents (rs : List Byte) :
    byteWaits (rs.flatMap fun r => [Event.wait .byte] ++ recvEvents r ++ [Event.wait .byte]) = 2 * rs.length := by
  have hwait : byteWaits [.wait .byte] = 1 := rfl
  induction rs with
  | nil => rfl
  | cons r rs ih =>
    rw [List.flatMap_cons, byteWaits_append, byteWaits_append, byteWaits_append, byteWaits_recvEvents, hwait, ih,
      List.length_cons]
    omega

@[simp] theorem byteWaits_readKeysEvents (c : Config) (rep : KeyReport) : byteWaits (readKeysEvents c rep) = 8 := by
  rw [readKeysEvents, byteWaits_windowEvents, byteWaits_append, byteWaits_sendEvents, byteWaits_reportEvents,
    Vector.length_toList]

theorem byteWaits_eventsOf (s : State) (i : Instr) :
    byteWaits (eventsOf s i) = if i = .ceReadkeys ∨ i = .kdGetkeys then 8 else 0 := by
  cases i
  case ceReadkeys | kdGetkeys => exact byteWaits_readKeysEvents _ _
  case ceWrat => exact byteWaits_writeEvents _ _ _
  case ceWrcmd | ceDispctl => exact byteWaits_sendWindowEvents _
  case dtSetdisp | dtClear | dtShowstr | dtShowhex | dtShowudec | dtShowsdec => exact byteWaits_planeEvents _ _ _
  all_goals rfl

/-- Settles O24: the report bytes alone carry inter-byte delays. -/
theorem onlyKeyReadsWaitBetweenBytes : Obligations.OnlyKeyReadsWaitBetweenBytes := by
  intro i s t hs h ht
  obtain rfl := performs_eq (exec_completes hs.2 h ht)
  rw [performed_trace, List.count_append, ← byteWaits_eventsOf s i, byteWaits]

end Sys2Proof.Machine
end

section
/-! SUPPORT. The frame view of what instructions put on the bus, and the register words it denotes (41_bitbus.md R90,
30_encoding.md R71, 20_memory.md R55). -/

namespace Sys2Proof.Machine

/-! ## The frames of a trace -/

theorem frames_of_between {trace : List Event} {fs : List Frame} (h : scanTrace trace = some ⟨fs, .between⟩) :
    frames trace = some fs := by rw [frames, h]; rfl

theorem frames_of_window {trace : List Event} {fs : List Frame} {items : List Item}
    (h : scanTrace trace = some ⟨fs, .window items⟩) : frames trace = some (fs ++ [⟨items, false⟩]) := by
  rw [frames, h]; rfl

/-- A trace that parses has frames. -/
theorem exists_frames {s : State} (h : traceParses s = true) : ∃ fs, frames s.trace = some fs := by
  cases hs : s.stb with
  | true =>
    obtain ⟨fs, hscan⟩ := scanTrace_idle h hs
    exact ⟨fs, frames_of_between hscan⟩
  | false =>
    obtain ⟨fs, items, hscan⟩ := scanTrace_open h hs
    exact ⟨_, frames_of_window hscan⟩

/-- With the strobe high the frames of a trace that parses are those its scan has closed. -/
theorem scanTrace_of_frames_idle {s : State} {fs : List Frame} (h : traceParses s = true) (hs : s.stb = true)
    (hf : frames s.trace = some fs) : scanTrace s.trace = some ⟨fs, .between⟩ := by
  obtain ⟨done, hscan⟩ := scanTrace_idle h hs
  obtain rfl := Option.some_inj.mp ((frames_of_between hscan).symm.trans hf)
  exact hscan

/-- With the strobe low the last frame is the open window. -/
theorem scanTrace_of_frames_open {s : State} {fs : List Frame} {items : List Item} (h : traceParses s = true)
    (hs : s.stb = false) (hf : frames s.trace = some (fs ++ [⟨items, false⟩])) :
    scanTrace s.trace = some ⟨fs, .window items⟩ := by
  obtain ⟨done, items', hscan⟩ := scanTrace_open h hs
  have hboth := Option.some_inj.mp ((frames_of_window hscan).symm.trans hf)
  obtain ⟨rfl, hlast⟩ := List.append_inj' hboth rfl
  cases hlast
  exact hscan

/-! ## The frames of an instruction -/

/-- A composite operation that performs adds the frames of its row (R71). -/
theorem performs_composite_frames {i : Instr} {s t : State} {fs : List Frame} (hi : isComposite i = true)
    (hparse : traceParses s = true) (hf : frames s.trace = some fs) (h : Performs s t i) :
    frames t.trace = some (fs ++ framesPut s i) := by
  obtain rfl := performs_eq h
  cases performs_busUse h with
  | windows _ _ before _ scan =>
    refine frames_of_between ?_
    rw [performed_trace, scanTrace_append_of_eq (scanTrace_of_frames_idle hparse before hf), scan]
  | oneByte _ _ raw => exact absurd hi (by simp [raw])
  | opens begins => subst begins; cases hi
  | closes ends => subst ends; cases hi
  | quiet raw => exact absurd hi (by simp [raw])

/-- Settles O55: the frames are those of the row, and the control byte reads as the fields it was made of. -/
theorem compositeOperationsPutTheirFrames : Obligations.CompositeOperationsPutTheirFrames := by
  intro i s t fs hi hidle hparse hf h ht
  have hperf := exec_completes hidle.1.2 h ht
  have hframes := performs_composite_frames hi hparse hf hperf
  refine ⟨hframes, ?_⟩
  rintro on x rfl hbase
  obtain ⟨-, n, hn, rfl⟩ := hperf
  refine ⟨txFrame [ctrlByte s.cfg on n], ?_, ctrlFields_ctrlByte hidle.1.1 hbase on n, rfl⟩
  rw [hframes, framesPut, hn]

/-- An instruction that performs in the host's window adds its item to that window's frame. -/
theorem performs_item_frames {i : Instr} {s t : State} {fs : List Frame} {items : List Item} {item : Item}
    (hi : itemOf s i = some item) (hparse : traceParses s = true)
    (hf : frames s.trace = some (fs ++ [⟨items, false⟩])) (h : Performs s t i) :
    frames t.trace = some (fs ++ [⟨items ++ [item], false⟩]) := by
  obtain rfl := performs_eq h
  cases performs_busUse h with
  | windows _ adds => exact absurd (adds.symm.trans hi) nofun
  | oneByte item' adds _ before _ scan =>
    obtain rfl := Option.some_inj.mp (adds.symm.trans hi)
    refine frames_of_window ?_
    rw [performed_trace, scanTrace_append_of_eq (scanTrace_of_frames_open hparse before hf), scan]
  | opens begins => subst begins; cases hi
  | closes ends => subst ends; cases hi
  | quiet _ adds => exact absurd (adds.symm.trans hi) nofun

/-- A request whose checks pass has performed. -/
theorem performs_of_passes {i : Instr} {s t : State} {op : Byte} (hs : s.Serving) (hop : opcodeOf i = some op)
    (hc : failedCheck s i = none) (h : exec i s = .next t) : Performs s t i := by
  obtain rfl := Host.Outcome.next.inj ((exec_passes hs hop hc).symm.trans h)
  exact exec_completes hs.2 h ((performed_fault s i).trans hs.2)

/-- BB.TXN_BEGIN adds an empty open window. -/
theorem txnBegin_frames {s : State} {fs : List Frame} (hparse : traceParses s = true) (hs : s.stb = true)
    (hf : frames s.trace = some fs) : frames (performed s .bbTxnBegin).trace = some (fs ++ [⟨[], false⟩]) := by
  refine frames_of_window ?_
  rw [performed_trace, scanTrace_append_of_eq (scanTrace_of_frames_idle hparse hs hf)]
  rfl

/-- Settles O56: a window opens between two others, takes the one item of BB.SEND or BB.RECV, and closes. -/
theorem rawOperationsBuildOneFrame : Obligations.RawOperationsBuildOneFrame := by
  refine fun s t fs items hs hparse => ⟨fun hhigh hf h => ?_, fun hlow hf =>
    ⟨fun b h => ?_, fun r h hr => ?_, fun h => ?_⟩⟩
  · obtain rfl := performs_eq (performs_of_passes (i := .bbTxnBegin) hs rfl (if_pos hhigh) h)
    exact txnBegin_frames hparse hhigh hf
  · have hc : failedCheck s (.bbSend b) = none := if_neg (by simp [hlow])
    exact performs_item_frames rfl hparse hf (performs_of_passes hs rfl hc h)
  · have hc : failedCheck s .bbRecv = none := if_neg (by simp [hlow])
    have hperf := performs_of_passes hs rfl hc h
    have hitem : itemOf s .bbRecv = some (.rx r) := by
      obtain rfl := performs_eq hperf
      cases hr
      rfl
    exact performs_item_frames hitem hparse hf hperf
  · have hc : failedCheck s .bbTxnEnd = none := if_neg (by simp [hlow])
    obtain rfl := performs_eq (performs_of_passes hs rfl hc h)
    refine frames_of_between ?_
    rw [performed_trace, scanTrace_append_of_eq (scanTrace_of_frames_open hparse hlow hf)]
    rfl

/-! ## The writes that windows denote -/

/-- The write that a window denotes, with the window before it (R55). -/
def writeClosedBy (c : Config) (before : Option Frame) (f : Frame) : Option (Byte × Byte) :=
  match c.writeFraming with
  | .oneWindow => writeOfFrame c f
  | .twoWindows => before.bind fun g => writeOfPair c g f

theorem writesAfter_concat (c : Config) (g : Frame) (gs : List Frame) (f : Frame) :
    writesAfter c g (gs ++ [f]) =
      writesAfter c g gs ++ (((g :: gs).getLast?).bind fun g => writeOfPair c g f).toList := by
  induction gs generalizing g with
  | nil => simp [writesAfter]
  | cons h hs ih => rw [List.cons_append, writesAfter, ih, writesAfter, List.append_assoc, List.getLast?_cons_cons]

/-- One more window adds the write it closes, under either framing. -/
theorem writesOf_concat (c : Config) (fs : List Frame) (f : Frame) :
    writesOf c (fs ++ [f]) = writesOf c fs ++ (writeClosedBy c fs.getLast? f).toList := by
  unfold writesOf writeClosedBy
  cases c.writeFraming with
  | oneWindow =>
    simp only [List.filterMap_append]
    cases hw : writeOfFrame c f <;> simp [hw]
  | twoWindows =>
    cases fs with
    | nil => rfl
    | cons g gs => exact writesAfter_concat c g gs f

/-- Only a closed window of two or three items denotes a write (R55, log 18). -/
theorem writeClosedBy_eq_none {f : Frame} (h : f.closed = false ∨ f.items.length ≠ 2 ∧ f.items.length ≠ 3) (c : Config)
    (before : Option Frame) : writeClosedBy c before f = none := by
  have hone : writeOfFrame c f = none := by
    unfold writeOfFrame
    split
    · simp at h
    · rfl
  have htwo : ∀ g, writeOfPair c g f = none := by
    intro g
    unfold writeOfPair
    split
    · simp at h
    · rfl
  unfold writeClosedBy
  cases c.writeFraming with
  | oneWindow => exact hone
  | twoWindows => cases before with
    | none => rfl
    | some g => exact htwo g

/-- A window that denotes no write leaves the writes as they were. -/
theorem writesOf_concat_none {f : Frame} (h : f.closed = false ∨ f.items.length ≠ 2 ∧ f.items.length ≠ 3) (c : Config)
    (fs : List Frame) : writesOf c (fs ++ [f]) = writesOf c fs := by
  rw [writesOf_concat, writeClosedBy_eq_none h, Option.toList_none, List.append_nil]

/-- The frames of a register write denote that write, under either framing (R55, R71). -/
theorem writesOf_append_writeFrames (c : Config) (fs : List Frame) (a v : Byte) :
    writesOf c (fs ++ writeFrames c a v) = writesOf c fs ++ [(addrByte c a, v)] := by
  unfold writeFrames
  cases hw : c.writeFraming with
  | oneWindow =>
    rw [writesOf_concat]
    simp [writeClosedBy, hw, txFrame, writeOfFrame]
  | twoWindows =>
    have hsplit : fs ++ [txFrame [c.cmdWrite], txFrame [addrByte c a, v]] =
        fs ++ [txFrame [c.cmdWrite]] ++ [txFrame [addrByte c a, v]] := by simp
    have hshort := writesOf_concat_none (f := txFrame [c.cmdWrite]) (.inr ⟨nofun, nofun⟩) c fs
    rw [hsplit, writesOf_concat, hshort]
    simp [writeClosedBy, hw, txFrame, writeOfPair]

/-- The writes of some plane words, the first to plane `j` (R122). -/
def planeWrites (c : Config) (j : Nat) (ws : List Byte) : List (Byte × Byte) :=
  (ws.zipIdx j).map fun w => (addrByte c (planeAddr w.2), w.1)

theorem writesOf_append_planeFrames (c : Config) (fs : List Frame) (j : Nat) (ws : List Byte) :
    writesOf c (fs ++ planeFrames c j ws) = writesOf c fs ++ planeWrites c j ws := by
  induction ws generalizing fs j with
  | nil => rw [planeFrames, planeWrites, List.zipIdx_nil, List.map_nil, List.append_nil, List.append_nil]
  | cons w ws ih =>
    rw [planeFrames, ← List.append_assoc, ih, writesOf_append_writeFrames, List.append_assoc]
    rfl

theorem mem_planeWrites {c : Config} {ws : List Byte} {w : Byte × Byte} :
    w ∈ planeWrites c 0 ws ↔ ∃ p v, ws[p]? = some v ∧ w = (addrByte c (planeAddr p), v) := by
  simp only [planeWrites, List.mem_map, Prod.exists, List.mk_mem_zipIdx_iff_getElem?]
  constructor
  · rintro ⟨v, p, hv, rfl⟩
    exact ⟨p, v, hv, rfl⟩
  · rintro ⟨p, v, hv, rfl⟩
    exact ⟨v, p, hv, rfl⟩

/-! ## The last write to an address -/

theorem lastWriteTo_append (c : Config) (a : Byte) (xs ys : List (Byte × Byte)) :
    lastWriteTo c a (xs ++ ys) = (lastWriteTo c a ys).or (lastWriteTo c a xs) := by
  rw [lastWriteTo, List.filter_append, List.getLast?_append, Option.map_or]
  rfl

/-- Writes to other address bytes do not count. -/
theorem lastWriteTo_eq_none {c : Config} {a : Byte} {ws : List (Byte × Byte)} (h : ∀ w ∈ ws, w.1 ≠ addrByte c a) :
    lastWriteTo c a ws = none := by
  have hfilter : ws.filter (fun w => w.1 == addrByte c a) = [] :=
    List.filter_eq_nil_iff.mpr fun w hw => by simpa using h w hw
  rw [lastWriteTo, hfilter]
  rfl

/-- Where every write to an address byte has one value, and there is one, that is the last. -/
theorem lastWriteTo_eq_some {c : Config} {a v : Byte} {ws : List (Byte × Byte)} (hmem : (addrByte c a, v) ∈ ws)
    (hall : ∀ w ∈ ws, w.1 = addrByte c a → w.2 = v) : lastWriteTo c a ws = some v := by
  have hin : (addrByte c a, v) ∈ ws.filter fun w => w.1 == addrByte c a := List.mem_filter.mpr ⟨hmem, beq_self_eq_true _⟩
  have hne := List.ne_nil_of_mem hin
  obtain ⟨hlast, hbyte⟩ := List.mem_filter.mp (List.getLast_mem hne)
  rw [lastWriteTo, List.getLast?_eq_some_getLast hne, Option.map_some, hall _ hlast (beq_iff_eq.mp hbyte)]

theorem writtenWord_of_frames {trace : List Event} {fs : List Frame} (h : frames trace = some fs) (c : Config) (a : Byte) :
    writtenWord c trace a = if a.toNat < c.addrSpace then lastWriteTo c a (writesOf c fs) else none := by
  rw [writtenWord, h]
  rfl

/-- An address in the register space holds the value of a later write to its byte, if every later one agrees. -/
theorem writtenWord_eq_some {trace : List Event} {fs : List Frame} {c : Config} {a v : Byte}
    {xs ys : List (Byte × Byte)} (h : frames trace = some fs) (hw : writesOf c fs = xs ++ ys)
    (ha : a.toNat < c.addrSpace) (hmem : (addrByte c a, v) ∈ ys) (hall : ∀ w ∈ ys, w.1 = addrByte c a → w.2 = v) :
    writtenWord c trace a = some v := by
  rw [writtenWord_of_frames h, if_pos ha, hw, lastWriteTo_append, lastWriteTo_eq_some hmem hall, Option.some_or]

/-- Later writes to other address bytes leave a written word. -/
theorem writtenWord_eq_of_others {trace trace' : List Event} {fs fs' : List Frame} {c : Config} {a : Byte}
    {ys : List (Byte × Byte)} (h : frames trace = some fs) (h' : frames trace' = some fs')
    (hw : writesOf c fs' = writesOf c fs ++ ys) (hall : ∀ w ∈ ys, w.1 ≠ addrByte c a) :
    writtenWord c trace' a = writtenWord c trace a := by
  rw [writtenWord_of_frames h, writtenWord_of_frames h', hw, lastWriteTo_append, lastWriteTo_eq_none hall, Option.none_or]

/-! ## CE.WRAT -/

/-- An address that CE.WRAT accepts lies in the register space (R102, R7). -/
theorem lt_addrSpace_of_position {c : Config} (hv : c.valid = true) {a : Byte} (heven : a.getLsbD 0 = false)
    (hpos : positionOk c a = true) : a.toNat < c.addrSpace := by
  rw [getLsbD_zero_eq, decide_eq_false_iff_not] at heven
  rw [positionOk_eq, decide_eq_true_eq] at hpos
  have := planeAddr_lt hv
  omega

/-- Settles O57: the frames added denote the one write. -/
theorem wratSetsTheWrittenWord : Obligations.WratSetsTheWrittenWord := by
  intro s t addr value hidle hparse h ht
  have hperf := exec_completes hidle.1.2 h ht
  obtain ⟨fs, hf⟩ := exists_frames hparse
  have hf' : frames t.trace = some (fs ++ writeFrames s.cfg addr value) := performs_composite_frames rfl hparse hf hperf
  have hw := writesOf_append_writeFrames s.cfg fs addr value
  have hcfg : t.cfg = s.cfg := performs_eq hperf ▸ performed_cfg s _
  obtain ⟨-, heven, hpos, -⟩ := hperf
  rw [hcfg]
  refine ⟨writtenWord_eq_some hf' hw (lt_addrSpace_of_position hidle.1.1 heven hpos) List.mem_cons_self ?_, fun a ha => ?_⟩
  · rintro w hmem -
    rw [List.mem_singleton.mp hmem]
  · refine writtenWord_eq_of_others hf hf' hw fun w hmem => ?_
    rw [List.mem_singleton.mp hmem]
    exact ha.symm

/-! ## The display operations -/

/-- The address of a plane lies in the register space (R41, R7). -/
theorem planeAddr_lt_addrSpace {c : Config} (hv : c.valid = true) {p : Nat} (hp : p < c.digits) :
    (planeAddr p).toNat < c.addrSpace := by
  have := planeAddr_lt hv
  have := digits_le hv
  rw [planeAddr, BitVec.toNat_ofNat]
  omega

/-- After the plane words of some values are put, the word of plane `p` is its plane word, if every plane that shares the
address byte has the same, and every other address byte is as before. -/
theorem planeWords_written {s t : State} {fs : List Frame} {values : List Byte} (hv : s.cfg.valid = true)
    (hf : frames s.trace = some fs)
    (hf' : frames t.trace = some (fs ++ planeFrames s.cfg 0 (transpose s.cfg.digits values))) :
    (∀ p < s.cfg.digits,
      (∀ q < s.cfg.digits, addrByte s.cfg (planeAddr q) = addrByte s.cfg (planeAddr p) →
        planeWord s.cfg.digits values q = planeWord s.cfg.digits values p) →
      writtenWord s.cfg t.trace (planeAddr p) = some (planeWord s.cfg.digits values p)) ∧
    ∀ a, (∀ p < s.cfg.digits, addrByte s.cfg a ≠ addrByte s.cfg (planeAddr p)) →
      writtenWord s.cfg t.trace a = writtenWord s.cfg s.trace a := by
  have hw := writesOf_append_planeFrames s.cfg fs 0 (transpose s.cfg.digits values)
  have hwrites : ∀ w ∈ planeWrites s.cfg 0 (transpose s.cfg.digits values),
      ∃ q < s.cfg.digits, w = (addrByte s.cfg (planeAddr q), planeWord s.cfg.digits values q) := by
    intro w hmem
    obtain ⟨q, v, hq, rfl⟩ := mem_planeWrites.mp hmem
    obtain ⟨hlt, -⟩ := List.getElem?_eq_some_iff.mp hq
    rw [transpose_length] at hlt
    rw [transpose_getElem? hlt] at hq
    exact ⟨q, hlt, by rw [← Option.some_inj.mp hq]⟩
  refine ⟨fun p hp hshared => ?_, fun a ha => ?_⟩
  · refine writtenWord_eq_some hf' hw (planeAddr_lt_addrSpace hv hp)
      (mem_planeWrites.mpr ⟨p, _, transpose_getElem? hp values, rfl⟩) fun w hmem hbyte => ?_
    obtain ⟨q, hq, rfl⟩ := hwrites w hmem
    exact hshared q hq hbyte
  · refine writtenWord_eq_of_others hf hf' hw fun w hmem => ?_
    obtain ⟨q, hq, rfl⟩ := hwrites w hmem
    exact (ha q hq).symm

/-- Settles O58: all plane words are 0, so planes that share an address byte agree. -/
theorem clearZeroesEveryWrittenWord : Obligations.ClearZeroesEveryWrittenWord := by
  intro s t hidle hparse h
  have hperf := performs_of_passes (i := .dtClear) hidle.1 rfl (if_pos hidle.2) h
  obtain ⟨fs, hf⟩ := exists_frames hparse
  have hf' := performs_composite_frames rfl hparse hf hperf
  have hcfg : t.cfg = s.cfg := performs_eq hperf ▸ performed_cfg s _
  rw [framesPut, ← transpose_nil] at hf'
  obtain ⟨hplanes, hothers⟩ := planeWords_written hidle.1.1 hf hf'
  rw [hcfg]
  exact ⟨fun p hp => hplanes p hp fun _ _ _ => rfl, hothers⟩

/-- Where the plane addresses have different address bytes, planes with one address byte are one plane. -/
theorem plane_eq_of_addrByte {c : Config} (h : planesDistinct c = true) {p q : Nat} (hp : p < c.digits)
    (hq : q < c.digits) (hbyte : addrByte c (planeAddr q) = addrByte c (planeAddr p)) : q = p := by
  simp only [planesDistinct, List.all_eq_true, List.mem_range, Bool.or_eq_true, bne_iff_ne, beq_iff_eq] at h
  exact (h q hq p hp).resolve_left fun hne => hne hbyte

/-- The frames of an operation that shows some values, or its new `buf`, are those of their plane words (R71). -/
theorem performs_shown_frames {i : Instr} {s t : State} {values : List Byte}
    (hi : i = .dtSetdisp values ∨ showsText i = true ∧ values = t.buf) (h : Performs s t i) :
    isComposite i = true ∧ framesPut s i = planeFrames s.cfg 0 (transpose s.cfg.digits values) := by
  obtain rfl | ⟨hi, rfl⟩ := hi
  · exact ⟨rfl, rfl⟩
  · obtain rfl := performs_eq h
    cases i <;> cases hi <;> exact ⟨rfl, rfl⟩

/-- Settles O59: with different address bytes each plane has the word of its own write. -/
theorem shownPlanesAreTheWrittenWords : Obligations.ShownPlanesAreTheWrittenWords := by
  intro s t i values hidle hparse hdistinct hi h ht
  have hperf := exec_completes hidle.1.2 h ht
  obtain ⟨hcomposite, hput⟩ := performs_shown_frames hi hperf
  obtain ⟨fs, hf⟩ := exists_frames hparse
  have hf' := performs_composite_frames hcomposite hparse hf hperf
  have hcfg : t.cfg = s.cfg := performs_eq hperf ▸ performed_cfg s _
  rw [hput] at hf'
  obtain ⟨hplanes, hothers⟩ := planeWords_written hidle.1.1 hf hf'
  rw [hcfg]
  refine ⟨fun p hp => hplanes p hp fun q hq hbyte => ?_, hothers⟩
  rw [plane_eq_of_addrByte hdistinct hp hq hbyte]

/-! ## The instructions that write no register -/

/-- A composite operation that puts no write frame puts one window, which denotes no write (R71). -/
theorem framesPut_silent {i : Instr} {s t : State} (hi : isComposite i = true) (hw : mayWriteRegisters i = false)
    (h : Performs s t i) : ∃ f, framesPut s i = [f] ∧ f.items.length ≠ 2 ∧ f.items.length ≠ 3 := by
  cases i <;> cases hi <;> cases hw
  case ceWrcmd => exact ⟨_, rfl, nofun, nofun⟩
  case ceDispctl =>
    obtain ⟨-, n, hn, -⟩ := h
    rw [framesPut, hn]
    exact ⟨_, rfl, nofun, nofun⟩
  case ceReadkeys | kdGetkeys => exact ⟨_, rfl, by simp [readFrame], by simp [readFrame]⟩

/-- An instruction that performs and closes no write frame leaves the writes its trace denotes. -/
theorem performs_keeps_writes {i : Instr} {s t : State} (hw : mayWriteRegisters i = false)
    (hparse : traceParses s = true) (h : Performs s t i) (c : Config) :
    ∃ fs fs', frames s.trace = some fs ∧ frames t.trace = some fs' ∧ writesOf c fs' = writesOf c fs := by
  cases performs_busUse h with
  | windows composite =>
    obtain ⟨fs, hf⟩ := exists_frames hparse
    obtain ⟨f, hput, hshort⟩ := framesPut_silent composite hw h
    have hf' := performs_composite_frames composite hparse hf h
    rw [hput] at hf'
    exact ⟨fs, _, hf, hf', writesOf_concat_none (.inr hshort) c fs⟩
  | oneByte item adds _ before =>
    obtain ⟨fs, items, hscan⟩ := scanTrace_open hparse before
    have hf := frames_of_window hscan
    refine ⟨_, _, hf, performs_item_frames adds hparse hf h, ?_⟩
    rw [writesOf_concat_none (.inl rfl), writesOf_concat_none (.inl rfl)]
  | opens begins before =>
    subst begins
    obtain ⟨fs, hf⟩ := exists_frames hparse
    obtain rfl := performs_eq h
    exact ⟨fs, _, hf, txnBegin_frames hparse before hf, writesOf_concat_none (.inl rfl) c fs⟩
  | closes ends => subst ends; cases hw
  | quiet _ _ _ silent =>
    obtain ⟨fs, hf⟩ := exists_frames hparse
    obtain rfl := performs_eq h
    refine ⟨fs, fs, hf, ?_, rfl⟩
    rw [performed_trace, silent, List.append_nil, hf]

/-- Settles O60: a halted block and an effect that closes no write frame denote the writes they did. -/
theorem otherInstructionsWriteNoRegister : Obligations.OtherInstructionsWriteNoRegister := by
  intro i s t hw hparse h hfault a
  obtain ⟨-, ⟨-, rfl⟩ | ⟨hf, ⟨op, -, hraise⟩ | hperf⟩⟩ := exec_next h
  · rfl
  · exact absurd (hfault.trans hf) (raises_keeps_count hraise).1
  · have hcfg : t.cfg = s.cfg := performs_eq hperf ▸ performed_cfg s _
    obtain ⟨fs, fs', hframes, hframes', hsame⟩ := performs_keeps_writes hw hparse hperf s.cfg
    rw [hcfg, writtenWord_of_frames hframes, writtenWord_of_frames hframes', hsame]

end Sys2Proof.Machine
end

section
/-! SUPPORT. The derived laws of the transpose, of the text buffer and of the key mask (43_display_transform.md sections 1, 2
and 4, 44_key_scan_decoder.md): what follows from the bit positions of R120, R127, R128, R150 and R151. -/

namespace Sys2Proof.Machine

/-! ## The transpose as a rotation of the bit matrix -/

/-- Bit `c` of plane word `a`, for `a` and `c` below `D`: bit `a` of value `D-1-c`. -/
theorem transpose_getD_getLsbD {d a c : Nat} {v : List Byte} (hd : d ≤ 8) (hlen : v.length ≤ d) (ha : a < d)
    (hc : c < d) : ((transpose d v).getD a 0#8).getLsbD c = (v.getD (d - 1 - c) 0#8).getLsbD a := by
  rw [List.getD_eq_getElem?_getD, transpose_getElem? ha, Option.getD_some, planeWord_getLsbD hd hlen,
    decide_eq_true hc, Bool.true_and]

/-- `D` bytes of `D` bits: a square bit matrix. -/
abbrev IsBitSquare (d : Nat) (v : List Byte) : Prop := v.length = d ∧ ∀ b ∈ v, b.toNat < 2 ^ d

/-- The bits at `D` and above of a square's bytes are clear. -/
theorem IsBitSquare.getLsbD_high {d a c : Nat} {v : List Byte} (h : IsBitSquare d v) (hc : d ≤ c) :
    (v.getD a 0#8).getLsbD c = false := by
  have hsmall : (v.getD a 0#8).toNat < 2 ^ d := by
    rw [List.getD_eq_getElem?_getD]
    cases ha : v[a]? with
    | none => exact Nat.two_pow_pos d
    | some b => exact h.2 b (List.mem_of_getElem? ha)
  exact Nat.testBit_lt_two_pow (hsmall.trans_le (Nat.pow_le_pow_right Nat.two_pos hc))

/-- Two squares are equal where their bits below `D` are. -/
theorem IsBitSquare.ext {d : Nat} {v w : List Byte} (hv : IsBitSquare d v) (hw : IsBitSquare d w)
    (h : ∀ a < d, ∀ c < d, (v.getD a 0#8).getLsbD c = (w.getD a 0#8).getLsbD c) : v = w := by
  have hlen : v.length = w.length := hv.1.trans hw.1.symm
  refine List.ext_getElem hlen fun a hav haw => BitVec.eq_of_getLsbD_eq fun c _ => ?_
  have ha : a < d := hv.1 ▸ hav
  have hbits : (v.getD a 0#8).getLsbD c = (w.getD a 0#8).getLsbD c := by
    obtain hc | hc := Nat.lt_or_ge c d
    · exact h a ha c hc
    · rw [hv.getLsbD_high hc, hw.getLsbD_high hc]
  rwa [List.getD_eq_getElem _ _ hav, List.getD_eq_getElem _ _ haw] at hbits

/-- The transpose answers a square. -/
theorem transpose_isBitSquare {d : Nat} {v : List Byte} (hd : d ≤ 8) (hlen : v.length ≤ d) : IsBitSquare d (transpose d v) := by
  refine ⟨transpose_length d v, fun b hb => ?_⟩
  obtain ⟨i, -, rfl⟩ := List.mem_map.mp hb
  refine Nat.lt_pow_two_of_testBit _ fun c hc => ?_
  have hbit := planeWord_getLsbD hd hlen i c
  rwa [decide_eq_false (Nat.not_lt.mpr hc), Bool.false_and] at hbit

/-- Twice the transpose turns the bit matrix by half a turn. -/
theorem transpose_transpose_getLsbD {d a c : Nat} {v : List Byte} (hd : d ≤ 8) (hlen : v.length ≤ d) (ha : a < d)
    (hc : c < d) : ((transpose d (transpose d v)).getD a 0#8).getLsbD c =
      (v.getD (d - 1 - a) 0#8).getLsbD (d - 1 - c) := by
  rw [transpose_getD_getLsbD hd (transpose_length d v).le ha hc, transpose_getD_getLsbD hd hlen (by omega) ha]

/-- Four times it is the identity on squares. -/
theorem transpose_four {d : Nat} {v : List Byte} (hd : d ≤ 8) (hv : IsBitSquare d v) :
    transpose d (transpose d (transpose d (transpose d v))) = v := by
  have hlen := fun w => (transpose_length d w).le
  refine (transpose_isBitSquare hd (hlen _)).ext hv fun a ha c hc => ?_
  have hback : ∀ k, k < d → d - 1 - (d - 1 - k) = k := fun k hk => by omega
  rw [transpose_transpose_getLsbD hd (hlen _) ha hc, transpose_transpose_getLsbD hd hv.1.le (by omega) (by omega),
    hback a ha, hback c hc]

/-- A plane word reads one bit of each value. -/
theorem planeWord_congr {v w : List Byte} {i : Nat} (hlen : v.length = w.length)
    (h : ∀ j, (v.getD j 0#8).getLsbD i = (w.getD j 0#8).getLsbD i) (d : Nat) : planeWord d v i = planeWord d w i := by
  rw [planeWord, planeWord, hlen]
  congr 1
  funext acc j
  congr 1
  refine BitVec.eq_of_getLsbD_eq fun k _ => ?_
  rw [movedBit_getLsbD, movedBit_getLsbD, h j]

/-- Two lists of values have one transpose where their plane words are the same. -/
theorem transpose_congr {d : Nat} {v w : List Byte} (h : ∀ i < d, planeWord d v i = planeWord d w i) :
    transpose d v = transpose d w :=
  List.map_congr_left fun i hi => h i (List.mem_range.mp hi)

/-- Padding with blanks reads the same at every position. -/
theorem getD_append_blanks (v : List Byte) (n j : Nat) : (v ++ List.replicate n 0#8).getD j 0#8 = v.getD j 0#8 := by
  obtain hj | hj := Nat.lt_or_ge j v.length
  · rw [List.getD_append _ _ _ _ hj]
  · rw [List.getD_append_right _ _ _ _ hj, List.getD_eq_default _ _ hj]
    simp

/-- Settles O26: the transpose has order four on squares, which gives the bijection; the rest reads bits. -/
theorem transposeLaws : Obligations.TransposeLaws := by
  refine fun d hd => ⟨fun v hv a c ha hc => transpose_transpose_getLsbD hd hv.le ha hc,
    fun v hlen hv => transpose_four hd ⟨hlen, hv⟩, fun v w hvlen hwlen hv hw h => ?_, fun w hlen hw => ?_,
    fun v hlen => ?_, fun v w hlen h => ?_⟩
  · rw [← transpose_four hd ⟨hvlen, hv⟩, h, transpose_four hd ⟨hwlen, hw⟩]
  · have hlength := fun u => (transpose_length d u).le
    obtain ⟨hvlen, hv⟩ := transpose_isBitSquare hd (hlength (transpose d w))
    exact ⟨transpose d (transpose d (transpose d w)), hvlen, hv, transpose_four hd ⟨hlen, hw⟩⟩
  · have hpadded : (v ++ List.replicate (d - v.length) 0#8).length ≤ d := by
      rw [List.length_append, List.length_replicate]
      omega
    refine transpose_congr fun i _ => BitVec.eq_of_getLsbD_eq fun k _ => ?_
    rw [planeWord_getLsbD hd hlen, planeWord_getLsbD hd hpadded, getD_append_blanks]
  · exact transpose_congr fun i hi => planeWord_congr hlen (fun j => h j i hi) d

/-! ## Text -/

/-- The low seven bits of a dot are 0. -/
theorem dotBitAt_and_low (d : Nat) (mask : Byte) (i : Nat) : dotBitAt d mask i &&& 0x7F#8 = 0#8 := by
  have hlow : (0x7F#8).getLsbD 7 = false := rfl
  refine BitVec.eq_of_getLsbD_eq fun k _ => ?_
  rw [BitVec.getLsbD_and, dotBitAt_getLsbD, BitVec.getLsbD_zero]
  by_cases hk : k = 7
  · rw [hk, hlow, Bool.and_false]
  · rw [decide_eq_false hk, Bool.false_and, Bool.false_and]

/-- Only the first `D` characters of a text are shown (R132). -/
theorem segmentAt_take {d i : Nat} (h : i < d) (text font : List Byte) (dots : Byte) :
    segmentAt d (text.take d) dots font i = segmentAt d text dots font i := by
  rw [segmentAt, segmentAt, List.getElem?_take_of_lt h]

/-- Settles O31: the buffer and the checks read the first `D` characters, and past the end there is the dot alone. -/
theorem textOutsideTheDisplay : Obligations.TextOutsideTheDisplay := by
  refine fun d text font dots => ⟨⟨?_, ?_⟩, fun i _ hi hpast => ⟨dotBitAt d dots i, ?_, dotBitAt_and_low d dots i, ?_⟩⟩
  · exact List.map_congr_left fun i hi => (segmentAt_take (List.mem_range.mp hi) text font dots).symm
  · rw [fontChecks, fontChecks, List.take_take, Nat.min_self]
  · rw [stringToBuffer_getElem? hi, segmentAt_past hpast]
  · rw [dotBitAt_getLsbD, decide_eq_true rfl, Bool.true_and]

/-- Cutting bit 7 off a shown character gives back its font entry, if that has bit 7 clear. -/
theorem or_dotBitAt_and_low {e : Byte} (he : e.getLsbD 7 = false) (d : Nat) (mask : Byte) (i : Nat) :
    (e ||| dotBitAt d mask i) &&& 0x7F#8 = e := by
  have hlow : ∀ k < 8, (0x7F#8).getLsbD k = decide (k ≠ 7) := by decide
  refine BitVec.eq_of_getLsbD_eq fun k hk => ?_
  rw [BitVec.getLsbD_and, BitVec.getLsbD_or, dotBitAt_getLsbD, hlow k hk]
  by_cases h7 : k = 7
  · rw [h7, he, decide_eq_false (not_not_intro rfl), Bool.and_false]
  · simp [h7]

/-- Settles O32: the byte without its dot is the font entry, which the alphabet has for one character only. -/
theorem textCanBeReadBack : Obligations.TextCanBeReadBack := by
  intro d text font alphabet dots _ hfits hentries hinj htext i c hc
  obtain ⟨hlt, -⟩ := List.getElem?_eq_some_iff.mp hc
  have hin := htext c (List.mem_of_getElem? hc)
  obtain ⟨-, e, he, hbit⟩ := hentries c hin
  refine ⟨e ||| dotBitAt d dots i, ?_, fun x hx => ?_⟩
  · rw [stringToBuffer_getElem? (hlt.trans_le hfits), segmentAt_char hc he]
  · rw [or_dotBitAt_and_low hbit, ← he]
    exact ⟨hinj x hx c hin, fun h => h ▸ rfl⟩

/-! ## The key mask -/

/-- Where bit `b` of the `k`-th remapped byte lands in the mask (R151). -/
def landing (b k : Nat) : Nat := if b < 4 then b + 2 * k else 8 + (b - 4) + 2 * k

theorem testBit_lowNibble (m : Nat) : Nat.testBit 0x0F m = decide (m < 4) := Nat.testBit_two_pow_sub_one 4 m

theorem testBit_highNibble (m : Nat) : Nat.testBit 0xF0 m = (decide (4 ≤ m) && decide (m < 8)) := by
  have h : 0xF0 = 0x0F <<< 4 := rfl
  rw [h, Nat.testBit_shiftLeft, testBit_lowNibble, Bool.eq_iff_iff]
  simp only [Bool.and_eq_true, decide_eq_true_eq]
  omega

/-- Bit `j` of a folded byte: the low nibble moved up by `2k`, the high one by `4+2k` (R151). -/
theorem foldByte_getLsbD_iff (rec : Byte) (k : Nat) {j : Nat} (hj : j < 16) :
    (foldByte rec k).getLsbD j = true ↔ ∃ b, b < 8 ∧ rec.getLsbD b = true ∧ j = landing b k := by
  rw [foldByte, BitVec.getLsbD_ofNat]
  simp only [Nat.testBit_or, Nat.testBit_shiftLeft, Nat.testBit_and, testBit_lowNibble, testBit_highNibble,
    Bool.and_eq_true, Bool.or_eq_true, decide_eq_true_eq, BitVec.testBit_toNat]
  constructor
  · rintro ⟨-, ⟨hk, hbit, hlow⟩ | ⟨hk, h4, hbit, hlow, hhigh⟩⟩
    · exact ⟨j - 2 * k, by omega, hbit, by rw [landing, if_pos hlow]; omega⟩
    · exact ⟨j - 2 * k - 4, hhigh, hbit, by rw [landing, if_neg (by omega)]; omega⟩
  · rintro ⟨b, hb, hbit, rfl⟩
    refine ⟨hj, ?_⟩
    unfold landing
    split
    case isTrue hlow =>
      rw [Nat.add_sub_cancel]
      exact .inl ⟨by omega, hbit, hlow⟩
    case isFalse hhigh =>
      have hback : 8 + (b - 4) + 2 * k - 2 * k - 4 = b := by omega
      rw [hback]
      exact .inr ⟨by omega, by omega, hbit, by omega, hb⟩

/-- A bit of the mask is set where a set report bit is moved and lands there (R150 to R152). -/
theorem decodeKeys_getLsbD_iff (dest : KeyRemap) (rep : KeyReport) {j : Nat} (hj : j < 16) :
    (decodeKeys dest rep).getLsbD j = true ↔
      ∃ (k : Fin 4) (d a : Fin 8), rep[k].getLsbD a = true ∧ dest[a] = some d ∧ j = landing d k := by
  have hor : (decodeKeys dest rep).getLsbD j = true ↔ ∃ k : Fin 4, (foldByte (remap dest rep[k]) k).getLsbD j = true := by
    rw [decodeKeys]
    simp only [BitVec.getLsbD_or, Bool.or_eq_true, Fin.exists_fin_succ]
    simp [or_assoc]
  simp only [hor, foldByte_getLsbD_iff _ _ hj]
  constructor
  · rintro ⟨k, b, hb, hbit, hland⟩
    obtain ⟨a, ha, hdest⟩ := (remapMovesEachBit dest rep[k] b hb).mp hbit
    exact ⟨k, ⟨b, hb⟩, a, ha, hdest, hland⟩
  · rintro ⟨k, d, a, ha, hdest, hland⟩
    exact ⟨k, d, d.isLt, (remapMovesEachBit dest rep[k] d d.isLt).mpr ⟨a, ha, hdest⟩, hland⟩

/-- The outputs 0, 1, 4 and 5 of four bytes land on sixteen different bits. -/
theorem landing_inj {d e : Fin 8} {k l : Fin 4} (hd : d = 0 ∨ d = 1 ∨ d = 4 ∨ d = 5)
    (he : e = 0 ∨ e = 1 ∨ e = 4 ∨ e = 5) (h : landing d k = landing e l) : d = e ∧ k = l := by
  revert d e k l
  decide

theorem landing_lt {d : Fin 8} (hd : d = 0 ∨ d = 1 ∨ d = 4 ∨ d = 5) (k : Fin 4) : landing d k < 16 := by
  revert d k
  decide

/-- Settles O43: each set bit lands at its place; with those outputs no two land at one, so a used report bit can be read
off its own mask bit. -/
theorem foldLandsEachNibbleBit : Obligations.FoldLandsEachNibbleBit := by
  refine ⟨fun rec k j _ hj => foldByte_getLsbD_iff rec k hj, fun dest rep hinj houts k a d hdest => ?_⟩
  have hd := houts a d hdest
  change (decodeKeys dest rep).getLsbD (landing d k) = _
  rw [Bool.eq_iff_iff, decodeKeys_getLsbD_iff dest rep (landing_lt hd k)]
  constructor
  · rintro ⟨l, e, b, hbit, hdest', hland⟩
    obtain ⟨rfl, rfl⟩ := landing_inj hd (houts b e hdest') hland
    rwa [hinj a b d hdest hdest']
  · intro hbit
    exact ⟨k, d, a, hbit, hdest, rfl⟩

end Sys2Proof.Machine
end
